-- ==== Sys2Proof/Word.lean ====
section
/-! DEFINITION. The two widths of the block: a byte and a 32-bit word (R9, R10). -/

namespace Sys2Proof

/-- A byte, 8 bits, values 0..255 (R10). -/
abbrev Byte := BitVec 8

/-- A word, 32 bits: one register element, one bus value, one command (R10, R75, R100). -/
abbrev Word := BitVec 32

end Sys2Proof
end

