-- ==== Sys2Proof/Syntax.lean ====
section
/-! DEFINITION. The commands of the block, one constructor for each row of the opcode map (R103). -/

namespace Sys2Proof

/-- A command. Operand data never travels in the command (R101); only ADD_RK has an argument (R102). -/
inductive Instr where
  | nop
  | keyexp
  | enc
  | dec
  | zeroize
  | stLoad
  | subBytes
  | shiftRows
  | mixColumns
  /-- ADD_RK with its round-key index, the 8-bit field ARG of the command word (R102). -/
  | addRk (n : Byte)
  | stStore
  | invSubBytes
  | invShiftRows
  | invMixColumns
  | modexp
deriving DecidableEq, Repr

end Sys2Proof
end

