-- ==== Sys2Proof/WellFormed.lean ====
section
/-! DEFINITION. Which commands are legal: the one operand check of R102. -/

namespace Sys2Proof

/-- A command is well formed when its round-key index is one of the 15 round keys (R102: "it is legal exactly when
`n <= 14`"); every other command has no operand. -/
def Instr.wf : Instr → Bool
  | .nop => true
  | .keyexp => true
  | .enc => true
  | .dec => true
  | .zeroize => true
  | .stLoad => true
  | .subBytes => true
  | .shiftRows => true
  | .mixColumns => true
  | .addRk n => n.toNat ≤ 14
  | .stStore => true
  | .invSubBytes => true
  | .invShiftRows => true
  | .invMixColumns => true
  | .modexp => true

end Sys2Proof
end

