-- ==== Sys2Proof/Decode.lean ====
section
/-! DEFINITION. Command words: the three fields (R100), the opcode map (R103), the total decoder (R104, R105), the
encoder, and the host's entry `decodeTableWord`. -/

namespace Sys2Proof

/-- `OP = v[7:0]` (R100). -/
def opField (v : Word) : Byte := v.extractLsb' 0 8

/-- `ARG = v[15:8]` (R100). -/
def argField (v : Word) : Byte := v.extractLsb' 8 8

/-- `RSVD = v[31:16]` (R100). -/
def rsvdField (v : Word) : BitVec 16 := v.extractLsb' 16 16

/-- Why a word is illegal: R104's four conditions, by name. -/
inductive Illegal where
  /-- `RSVD ≠ 0`. -/
  | reservedBits
  /-- `OP` is not in the opcode map. -/
  | unassignedOp
  /-- `OP ≠ 0x14` and `ARG ≠ 0`. -/
  | argNotZero
  /-- `OP = 0x14` and `ARG > 14`. -/
  | roundKeyIndex
deriving DecidableEq, Repr

/-- What a word decodes to (R105: `Command | Illegal`). -/
inductive Decoded where
  | command (i : Instr)
  | illegal (why : Illegal)
deriving DecidableEq, Repr

/-- The opcode map read from opcode to mnemonic (R103); the argument is used by ADD_RK only. -/
def commandOf (op arg : Byte) : Option Instr :=
  match op.toNat with
  | 0x00 => some .nop
  | 0x01 => some .keyexp
  | 0x02 => some .enc
  | 0x03 => some .dec
  | 0x04 => some .zeroize
  | 0x10 => some .stLoad
  | 0x11 => some .subBytes
  | 0x12 => some .shiftRows
  | 0x13 => some .mixColumns
  | 0x14 => some (.addRk arg)
  | 0x15 => some .stStore
  | 0x19 => some .invSubBytes
  | 0x1A => some .invShiftRows
  | 0x1B => some .invMixColumns
  | 0x20 => some .modexp
  | _ => none

/-- Decoding, total on every 32-bit word, its checks in R105's order. -/
def decode (v : Word) : Decoded :=
  if rsvdField v ≠ 0 then .illegal .reservedBits
  else
    match commandOf (opField v) (argField v) with
    | none => .illegal .unassignedOp
    | some (.addRk n) => if n.toNat ≤ 14 then .command (.addRk n) else .illegal .roundKeyIndex
    | some i => if argField v ≠ 0 then .illegal .argNotZero else .command i

/-- The opcode of a command (R103, read from mnemonic to opcode). -/
def Instr.opcode : Instr → Byte
  | .nop => 0x00
  | .keyexp => 0x01
  | .enc => 0x02
  | .dec => 0x03
  | .zeroize => 0x04
  | .stLoad => 0x10
  | .subBytes => 0x11
  | .shiftRows => 0x12
  | .mixColumns => 0x13
  | .addRk _ => 0x14
  | .stStore => 0x15
  | .invSubBytes => 0x19
  | .invShiftRows => 0x1A
  | .invMixColumns => 0x1B
  | .modexp => 0x20

/-- The ARG field of a command: the round-key index for ADD_RK, else 0 (R102). -/
def Instr.arg : Instr → Byte
  | .addRk n => n
  | .nop => 0
  | .keyexp => 0
  | .enc => 0
  | .dec => 0
  | .zeroize => 0
  | .stLoad => 0
  | .subBytes => 0
  | .shiftRows => 0
  | .mixColumns => 0
  | .stStore => 0
  | .invSubBytes => 0
  | .invShiftRows => 0
  | .invMixColumns => 0
  | .modexp => 0

/-- The command word of a command: `RSVD = 0`, then ARG, then OP (R100, R106). -/
def encode (i : Instr) : Word := (0#16 ++ i.arg ++ i.opcode : BitVec (16 + 8 + 8))

/-- The command a row's bits decode to, the bits above `nbits` being 0. A command is exactly one 32-bit word (R101):
anything that does not fit in one is none. -/
def decodeTableWord (nbits w : Nat) : Option Instr :=
  let v := w % 2 ^ nbits
  if v < 2 ^ 32 then
    match decode (BitVec.ofNat 32 v) with
    | .command i => some i
    | .illegal _ => none
  else none

end Sys2Proof
end

