-- ==== Sys2Proof/Config.lean ====
section
/-! DEFINITION. The implementation parameters of R8. They are fixed for one build of the block and are kept as
plain data in State, where no step changes them: a statement over all states is a statement over all builds. -/

namespace Sys2Proof

/-- The parameters a model of the block takes (R8). `LATENCY(op)` is not here: a model records no time (R308), and
how many host accesses come before a completion is the schedule's choice (log 1). -/
structure Params where
  /-- `MX_WORDS`: the width of every MODEXP operand and of its result, in words; legal values 1..128. -/
  mxWords : Nat
  /-- `HAS_DEC`: whether the block has the inverse cipher. -/
  hasDec : Bool
  /-- The 4 KiB page of the platform's address space the window stands in: `BASE_ADDR` is `4096 * basePage`,
  which is how R8's "any 4 KiB-aligned address" is said once and for all. -/
  basePage : Nat
deriving DecidableEq, Repr

namespace Params

/-- The legal values of R8's table. -/
abbrev Legal (p : Params) : Prop := 1 ≤ p.mxWords ∧ p.mxWords ≤ 128

/-- `BASE_ADDR`, the bus address of register offset 0x000 (R8, R70). -/
def baseAddr (p : Params) : Nat := 4096 * p.basePage

/-- DESIGN CHOICE (log 3; the two OPEN values): the build that `State.reset` is the reset state of. `HAS_DEC = 1` is
the spec's value, `MX_WORDS = 64` is what its test vectors assume, and `BASE_ADDR` is open. -/
def testBuild : Params := { mxWords := 64, hasDec := true, basePage := 0 }

end Params

end Sys2Proof
end

