-- ==== Sys2Proof/Machine/State.lean ====
section
/-! DEFINITION. The state of the block (R30), the host's port, the schedule of turns, the named reasons a step can
stop, and the reset state (R48). All of it is plain data. -/

namespace Sys2Proof.Machine

open Sys2Proof

/-- The error codes a STATUS read can show (R260). The reserved codes 6..15 are "never produced"; no value of this
type stands for one (93_implementation_defined.md I9; log 18). -/
inductive ErrCode where
  | none
  | illegal
  | busy
  | noKey
  | unsupported
  | modZero
deriving DecidableEq, Repr

/-- A register or register element of the window (R72). -/
inductive Reg where
  | id
  | cfg
  | ctrl
  | status
  | cmd
  | key (i : Fin 8)
  | din (i : Fin 4)
  | dout (i : Fin 4)
  | st (i : Fin 4)
  | rk (i : Fin 60)
  | base (i : Fin 128)
  | exp (i : Fin 128)
  | mod (i : Fin 128)
  | res (i : Fin 128)
  | reserved
deriving DecidableEq, Repr

/-- The width of a host access: 1, 2 or 4 bytes (R71, R76). -/
inductive AccessSize where
  | byte
  | half
  | word
deriving DecidableEq, Repr

/-- One host access on the bus: `BusRead` or `BusWrite` (R12, R71), at a bus address (R70). -/
inductive Access where
  | read (addr : Nat) (size : AccessSize)
  | write (addr : Nat) (size : AccessSize) (value : Word)
deriving DecidableEq, Repr

/-- What the block answers to a host access that reached it: OKAY to a write, OKAY and a value to a read, or the bus
error of an illegal access, which carries no data (R71, R76). -/
inductive Response where
  | okay
  | data (value : Word)
  | busError
deriving DecidableEq, Repr

/-- The two agents (R13). -/
inductive Agent where
  | host
  | sequencer
deriving DecidableEq, Repr

/-- One turn of the step relation: a host step, a completion step or a reset step (R294). A reset turn gives the level
`rst` takes (R290). -/
inductive Turn where
  | host (a : Access)
  | sequencer
  | reset (asserted : Bool)
deriving DecidableEq, Repr

/-- The whole state. The fields down to `res` are the block's (R30); `rst` is the level of its reset input (R290); the
last three are the model's own (log 1, log 4, log 5). -/
structure State where
  /-- The parameters CFG reports (R8, R32); no step writes them (log 3). -/
  params : Params
  /-- CTRL.IRQ_EN (R33); CTRL's other bits are not stored. -/
  irqEn : Bool
  /-- STATUS.BUSY, the sequencer's `busy` (R34, R36). -/
  busy : Bool
  /-- STATUS.DONE (R34). -/
  done : Bool
  /-- STATUS.KEY_VALID (R34, R38). -/
  keyValid : Bool
  /-- STATUS.ERR (R34). -/
  err : Bool
  /-- STATUS.ERR_CODE (R34, R260). -/
  errCode : ErrCode
  /-- The accepted command in flight, `(op, arg)` or none (R36). -/
  pending : Option Instr
  /-- KEY[0..7] (R37). -/
  key : Vector Word 8
  /-- DIN[0..3] (R40). -/
  din : Vector Word 4
  /-- DOUT[0..3] (R41). -/
  dout : Vector Word 4
  /-- STATE[0..3], the cipher's working state (R42). -/
  st : Vector Word 4
  /-- RK[0..59] (R43). -/
  rk : Vector Word 60
  /-- BASE[0..127] (R44); the elements from MX_WORDS on do not exist and hold 0 (log 13). -/
  base : Vector Word 128
  /-- EXP[0..127] (R44). -/
  exp : Vector Word 128
  /-- MOD[0..127] (R44). -/
  mod : Vector Word 128
  /-- RES[0..127] (R45). -/
  res : Vector Word 128
  /-- The level of the reset input `rst` (R290, R291; log 7). -/
  rst : Bool
  /-- The model's own: the agent that takes the current step, `host` between steps (log 4). -/
  agent : Agent
  /-- The model's own: the turns still to come, first one first (log 1). -/
  schedule : List Turn
  /-- The bus port's answer to the last host access that reached the block, none since reset (log 5). -/
  resp : Option Response
deriving DecidableEq, Repr

/-- The reasons a step can fault. -/
inductive Fault where
  /-- Raised by the sequencer's turn when `busy` is 1 and no command is pending. R36 rules this out ("`pending` is
  `none` exactly when `busy = 0`") and no run from reset reaches it. Safe: the model stops where the spec describes no
  machine (log 8). -/
  | lostCommand
deriving DecidableEq, Repr

/-- The reasons a step can be refused. -/
inductive Refusal where
  /-- Raised by an arm of `exec` for a command that has no meaning yet. Safe. -/
  | notModelled (mnemonic : String)
  /-- Raised by a host access while `rst` is asserted: R291, "A model refuses such an access rather than giving it a
  value or an effect". Safe. -/
  | accessDuringReset
deriving DecidableEq, Repr

/-- The reset state of a given build: every register and array zero, idle, no error, interrupts disabled (R48, R290,
R292). The parameters are the build's; `rst` is released, the schedule is empty and no access has been answered. -/
def State.resetWith (p : Params) : State where
  params := p
  irqEn := false
  busy := false
  done := false
  keyValid := false
  err := false
  errCode := .none
  pending := none
  key := Vector.replicate 8 0
  din := Vector.replicate 4 0
  dout := Vector.replicate 4 0
  st := Vector.replicate 4 0
  rk := Vector.replicate 60 0
  base := Vector.replicate 128 0
  exp := Vector.replicate 128 0
  mod := Vector.replicate 128 0
  res := Vector.replicate 128 0
  rst := false
  agent := .host
  schedule := []
  resp := none

/-- The machine right after reset (R48), for the build of log 3. -/
def State.reset : State := State.resetWith Params.testBuild

end Sys2Proof.Machine
end

