-- ==== Sys2Proof/Machine/Operands.lean ====
section
/-! DEFINITION. Operand forms: bytes of a word, the 4×4 view of four column words, and multi-word integers. -/

namespace Sys2Proof.Machine

open Sys2Proof

/-- `byte_r(w)`: byte 0 is the most significant, `w[31:24]` (R10). -/
def byteOf (r : Fin 4) (w : Word) : Byte := w.extractLsb' (24 - 8 * r.val) 8

/-- `word(b0, b1, b2, b3) = {b0, b1, b2, b3}` (R10). -/
def word (b0 b1 b2 b3 : Byte) : Word := (b0 ++ b1 ++ b2 ++ b3 : BitVec (8 + 8 + 8 + 8))

/-- Four column words: a block, or the cipher state (R11, R40 to R42). -/
abbrev Columns := Vector Word 4

/-- `s[r][c] = byte_r(S[c])` (R11). -/
def byteAt (S : Columns) (r c : Fin 4) : Byte := byteOf r S[c]

/-- The column words of a 4×4 byte matrix (R11). -/
def ofBytes (f : Fin 4 → Fin 4 → Byte) : Columns :=
  Vector.ofFn fun c => word (f 0 c) (f 1 c) (f 2 c) (f 3 c)

/-- `Int(REG) = Σ_{i < n} REG[i]·2^(32i)`, least significant word first (R12, R44). -/
def intOf (v : Vector Word 128) : Nat → Nat
  | 0 => 0
  | n + 1 => intOf v n + (v[n]?.getD 0).toNat * 2 ^ (32 * n)

/-- `SetInt(REG, x)`: `REG[i] <- x[32i+31:32i]` for `i < n`; the other elements keep their value (R12). -/
def setInt (n : Nat) (v : Vector Word 128) (x : Nat) : Vector Word 128 :=
  Vector.ofFn fun i => if i.val < n then BitVec.ofNat 32 (x >>> (32 * i.val)) else v[i]

/-- Element `i` of BASE, EXP, MOD or RES as a read shows it: "An element `i >= MX_WORDS` reads 0" (R44, R45, R73). -/
def readElem (n : Nat) (v : Vector Word 128) (i : Fin 128) : Word := if i.val < n then v[i] else 0

end Sys2Proof.Machine
end

