-- ==== Sys2Proof/Machine/Field.lean ====
section
/-! DEFINITION. GF(2^8) arithmetic, the S-box and its inverse, and the round constants (40_gf_sbox.md). The values are
those the spec takes from FIPS-197 (log 10). -/

namespace Sys2Proof.Machine

open Sys2Proof

/-- `double(b)`: the byte shifted left by one, reduced by 0x11B when its top bit was set (R131). -/
def double (b : Byte) : Byte :=
  let t : BitVec 9 := b.setWidth 9 <<< 1
  (if b.getLsbD 7 then t ^^^ 0x11B#9 else t).setWidth 8

/-- `times3(b) = double(b) ^ b` (R132). -/
def times3 (b : Byte) : Byte := double b ^^^ b

/-- The loop of `gmul`, `n` bits of `b` still to look at, lowest first (R133). -/
def gmulLoop : Nat → Byte → Byte → Byte → Byte
  | 0, _, _, r => r
  | n + 1, b, x, r => gmulLoop n (b >>> 1) (double x) (if b.getLsbD 0 then r ^^^ x else r)

/-- The field product `gmul(a, b)` (R133). -/
def gmul (a b : Byte) : Byte := gmulLoop 8 b a 0

/-- The affine map of the S-box's definition: `x ^ rotl8(x,1) ^ rotl8(x,2) ^ rotl8(x,3) ^ rotl8(x,4) ^ 0x63` (R135). -/
def affine (x : Byte) : Byte :=
  x ^^^ x.rotateLeft 1 ^^^ x.rotateLeft 2 ^^^ x.rotateLeft 3 ^^^ x.rotateLeft 4 ^^^ 0x63

/-- Entry `a` of a 16×16 byte table given as its rows, each row one number with column 0 in the highest byte: row
`a[7:4]`, column `a[3:0]` (the layout of R136 and R137). -/
def tableEntry (rows : List Nat) (a : Byte) : Byte :=
  BitVec.ofNat 8 (rows.getD (a.toNat / 16) 0 >>> (8 * (15 - a.toNat % 16)))

/-- The rows of the S-box table (R136). -/
def sboxRows : List Nat :=
  [0x637c777bf26b6fc53001672bfed7ab76, 0xca82c97dfa5947f0add4a2af9ca472c0,
   0xb7fd9326363ff7cc34a5e5f171d83115, 0x04c723c31896059a071280e2eb27b275,
   0x09832c1a1b6e5aa0523bd6b329e32f84, 0x53d100ed20fcb15b6acbbe394a4c58cf,
   0xd0efaafb434d338545f9027f503c9fa8, 0x51a3408f929d38f5bcb6da2110fff3d2] ++
  [0xcd0c13ec5f974417c4a77e3d645d1973, 0x60814fdc222a908846eeb814de5e0bdb,
   0xe0323a0a4906245cc2d3ac629195e479, 0xe7c8376d8dd54ea96c56f4ea657aae08,
   0xba78252e1ca6b4c6e8dd741f4bbd8b8a, 0x703eb5664803f60e613557b986c11d9e,
   0xe1f8981169d98e949b1e87e9ce5528df, 0x8ca1890dbfe6426841992d0fb054bb16]

/-- The S-box, read from R136's table; that the table is R135's definition is a statement of its own (log 11). -/
def sbox (a : Byte) : Byte := tableEntry sboxRows a

/-- The rows of the inverse S-box table (R137). -/
def invSboxRows : List Nat :=
  [0x52096ad53036a538bf40a39e81f3d7fb, 0x7ce339829b2fff87348e4344c4dee9cb,
   0x547b9432a6c2233dee4c950b42fac34e, 0x082ea16628d924b2765ba2496d8bd125,
   0x72f8f66486689816d4a45ccc5d65b692, 0x6c704850fdedb9da5e154657a78d9d84,
   0x90d8ab008cbcd30af7e45805b8b34506, 0xd02c1e8fca3f0f02c1afbd0301138a6b] ++
  [0x3a9111414f67dcea97f2cfcef0b4e673, 0x96ac7422e7ad3585e2f937e81c75df6e,
   0x47f11a711d29c5896fb7620eaa18be1b, 0xfc563e4bc6d279209adbc0fe78cd5af4,
   0x1fdda8338807c731b11210592780ec5f, 0x60517fa919b54a0d2de57a9f93c99cef,
   0xa0e03b4dae2af5b0c8ebbb3c83539961, 0x172b047eba77d626e169146355210c7d]

/-- The inverse S-box, read from R137's table. -/
def invSbox (a : Byte) : Byte := tableEntry invSboxRows a

/-- The round-constant sequence: `RC[0] = 0x01`, `RC[k+1] = double(RC[k])` (R138). -/
def rc : Nat → Byte
  | 0 => 0x01
  | k + 1 => double (rc k)

end Sys2Proof.Machine
end

