-- ==== Sys2Proof/Machine/Flags.lean ====
section
/-! DEFINITION. The status and control registers: what a read of STATUS and CTRL shows, what a write to them does, how
an error is recorded, and the interrupt output. -/

namespace Sys2Proof.Machine

open Sys2Proof

/-- The value of ERR_CODE (R260). -/
def ErrCode.bits : ErrCode → BitVec 4
  | .none => 0
  | .illegal => 1
  | .busy => 2
  | .noKey => 3
  | .unsupported => 4
  | .modZero => 5

namespace State

/-- STATUS: `{20'b0, ERR_CODE[3:0], 4'b0, ERR, KEY_VALID, DONE, BUSY}` (R34, R73). -/
def statusWord (s : State) : Word :=
  (0#20 ++ s.errCode.bits ++ 0#4 ++ BitVec.ofBool s.err ++ BitVec.ofBool s.keyValid ++ BitVec.ofBool s.done
    ++ BitVec.ofBool s.busy : BitVec (20 + 4 + 4 + 1 + 1 + 1 + 1))

/-- CTRL: `zext_32(CTRL.IRQ_EN)` (R33, R73). -/
def ctrlWord (s : State) : Word := (BitVec.ofBool s.irqEn).setWidth 32

/-- CFG: `{23'b0, HAS_DEC, MX_WORDS[7:0]}` (R32). -/
def cfgWord (s : State) : Word :=
  (0#23 ++ BitVec.ofBool s.params.hasDec ++ BitVec.ofNat 8 s.params.mxWords : BitVec (23 + 1 + 8))

/-- A write to CTRL stores bit 0 only (R33, R74). -/
def writeCtrl (v : Word) (s : State) : State := { s with irqEn := v.getLsbD 0 }

/-- A write to STATUS: a 1 in bit 1 clears DONE, a 1 in bit 3 clears ERR and ERR_CODE; every other bit is ignored
(R34, R74). This is how the host acknowledges a completion or an error (R268). -/
def writeStatus (v : Word) (s : State) : State :=
  { s with
    done := s.done && !v.getLsbD 1
    err := s.err && !v.getLsbD 3
    errCode := if v.getLsbD 3 then .none else s.errCode }

/-- `raise Error(code)`: record the error if none is recorded, and change nothing else (R263, R264). The block has no
trap to take (R267): this is all an error does. -/
def raiseError (e : ErrCode) (s : State) : State :=
  { s with
    err := true
    errCode := if s.err then s.errCode else e }

/-- The interrupt output: `CTRL.IRQ_EN & (STATUS.DONE | STATUS.ERR)`, a function of the state (R270). -/
def irq (s : State) : Bool := s.irqEn && (s.done || s.err)

end State

end Sys2Proof.Machine
end

