-- ==== Sys2Proof/Machine/Ops.lean ====
section
/-! DEFINITION. The named operations the commands and the bus share: the offset map, reading a register, the issue
checks, accepting a command, completing one, and the two ends of a command put together. -/

namespace Sys2Proof.Machine

open Sys2Proof

/-- The value ID reads, "KPC1" in ASCII (R31). -/
def idValue : Word := 0x4B504331

/-- The offset of CMD (R35, R72). -/
def cmdOffset : Nat := 0x010

/-- The window offset of a bus address: `BASE_ADDR + 0x000` to `BASE_ADDR + 0xFFF` (R70); an address outside is no
access to the block (log 9). -/
def windowOffset (p : Params) (addr : Nat) : Option (BitVec 12) :=
  if p.baseAddr ≤ addr ∧ addr < p.baseAddr + 0x1000 then some (BitVec.ofNat 12 (addr - p.baseAddr)) else none

/-- A legal access is 4 bytes wide at an offset that is a multiple of 4 (R71). -/
abbrev LegalAccess (size : AccessSize) (off : BitVec 12) : Prop := size = .word ∧ off.toNat % 4 = 0

/-- The offset map (R72): element `i` of an array at `start` sits at `start + 4i`. Meant for legal offsets. -/
def locate (off : BitVec 12) : Reg :=
  let o := off.toNat
  if o = 0x000 then .id
  else if o = 0x004 then .cfg
  else if o = 0x008 then .ctrl
  else if o = 0x00C then .status
  else if o = cmdOffset then .cmd
  else if o < 0x040 then .reserved
  else if h : o < 0x060 then .key ⟨(o - 0x040) / 4 % 8, by omega⟩
  else if h : o < 0x070 then .din ⟨(o - 0x060) / 4 % 4, by omega⟩
  else if h : o < 0x080 then .dout ⟨(o - 0x070) / 4 % 4, by omega⟩
  else if h : o < 0x090 then .st ⟨(o - 0x080) / 4 % 4, by omega⟩
  else if o < 0x100 then .reserved
  else if h : o < 0x1F0 then .rk ⟨(o - 0x100) / 4 % 60, by omega⟩
  else if o < 0x200 then .reserved
  else if h : o < 0x400 then .base ⟨(o - 0x200) / 4 % 128, by omega⟩
  else if h : o < 0x600 then .exp ⟨(o - 0x400) / 4 % 128, by omega⟩
  else if h : o < 0x800 then .mod ⟨(o - 0x600) / 4 % 128, by omega⟩
  else if h : o < 0xA00 then .res ⟨(o - 0x800) / 4 % 128, by omega⟩
  else .reserved

namespace State

/-- What a legal read returns (R73). It has no side effect, so it is a value, not a step. -/
def readReg (s : State) : Reg → Word
  | .id => idValue
  | .cfg => s.cfgWord
  | .ctrl => s.ctrlWord
  | .status => s.statusWord
  | .cmd => 0
  | .key i => s.key[i]
  | .din i => s.din[i]
  | .dout i => s.dout[i]
  | .st i => s.st[i]
  | .rk i => s.rk[i]
  | .base i => readElem s.params.mxWords s.base i
  | .exp i => readElem s.params.mxWords s.exp i
  | .mod i => readElem s.params.mxWords s.mod i
  | .res i => readElem s.params.mxWords s.res i
  | .reserved => 0

/-- `Int(BASE)` (R230). -/
def baseInt (s : State) : Nat := intOf s.base s.params.mxWords

/-- `Int(EXP)` (R230). -/
def expInt (s : State) : Nat := intOf s.exp s.params.mxWords

/-- `Int(MOD)` (R230). -/
def modInt (s : State) : Nat := intOf s.mod s.params.mxWords

end State

/-- The commands that exist only when `HAS_DEC = 1` (R103, R262's third check). -/
def needsInverse : Instr → Bool
  | .dec => true
  | .invSubBytes => true
  | .invShiftRows => true
  | .invMixColumns => true
  | _ => false

/-- The commands that need `KEY_VALID = 1` (R38, R262's fourth check). -/
def needsKey : Instr → Bool
  | .enc => true
  | .dec => true
  | .addRk _ => true
  | _ => false

/-- The issue checks, in R262's order; the first that fails is the one error the write reports. A word that does not
decode never gets this far (see `issueWord`); an ADD_RK index above 14 is illegal here too (log 15). -/
def issueError (i : Instr) (s : State) : Option ErrCode :=
  if s.busy then some .busy
  else if ¬ i.wf then some .illegal
  else if needsInverse i ∧ ¬ s.params.hasDec then some .unsupported
  else if needsKey i ∧ ¬ s.keyValid then some .noKey
  else if i = .modexp ∧ s.modInt = 0 then some .modZero
  else none

namespace State

/-- `accept(op, arg)`: BUSY and `pending` set, DONE cleared, and KEY_VALID cleared by KEYEXP (R36). -/
def accept (i : Instr) (s : State) : State :=
  { s with
    busy := true
    pending := some i
    done := false
    keyValid := if i = .keyexp then false else s.keyValid }

/-- The end of `complete()`: `busy <- 0; pending <- none; DONE <- 1`, and the step's agent is put back (R297). -/
def finish (s : State) : State :=
  { s with
    busy := false
    pending := none
    done := true
    agent := .host }

end State

/-- The two ends of a command. In the host's step it is issued: the checks of R262, then an error record or `accept`.
In the sequencer's step it completes: its effect on the registers and the end of `complete()`, all in one step
(R295, R297). -/
def command (i : Instr) (effect : State → State) (s : State) : Host.Outcome State Fault Refusal :=
  match s.agent with
  | .host =>
    match issueError i s with
    | some e => .next (s.raiseError e)
    | none => .next (s.accept i)
  | .sequencer => .next (effect s).finish

end Sys2Proof.Machine
end

