-- ==== Sys2Proof/Machine/KeySchedule.lean ====
section
/-! DEFINITION. The key schedule and KEYEXP (41_key_schedule.md). -/

namespace Sys2Proof.Machine

open Sys2Proof

/-- `RotWord(w) = rotl32(w, 8)` (R160). -/
def rotWord (w : Word) : Word := w.rotateLeft 8

/-- `SubWord(w)`: the S-box on each byte (R161). -/
def subWord (w : Word) : Word :=
  word (sbox (byteOf 0 w)) (sbox (byteOf 1 w)) (sbox (byteOf 2 w)) (sbox (byteOf 3 w))

/-- What word `i - 1` becomes before it is XORed into word `i`, the round counter being `k` (R162): rotated,
substituted and the round constant XORed into byte 0 when `i mod 8 = 0`; substituted when `i mod 8 = 4`; else as it
is. -/
def scheduleTerm (i k : Nat) (t : Word) : Word :=
  if i % 8 = 0 then subWord (rotWord t) ^^^ word (rc k) 0 0 0
  else if i % 8 = 4 then subWord t
  else t

/-- The loop of `Expand`: `n` words still to form, the next one having index `i`, the round counter at `k`, the words
so far in `ws` (R162). The counter is incremented after each use (R163). -/
def expandLoop : Nat → Nat → Nat → List Word → List Word
  | 0, _, _, ws => ws
  | n + 1, i, k, ws =>
    expandLoop n (i + 1) (if i % 8 = 0 then k + 1 else k)
      (ws ++ [ws.getD (i - 8) 0 ^^^ scheduleTerm i k (ws.getD (i - 1) 0)])

theorem length_expandLoop (n i k : Nat) (ws : List Word) :
    (expandLoop n i k ws).length = ws.length + n := by
  induction n generalizing i k ws with
  | zero => rfl
  | succ n ih => simp [expandLoop, ih]; omega

/-- `Expand(K)`: the 8 key words, then words 8 to 59, the counter starting at 0 (R162, R163). -/
def expand (key : Vector Word 8) : Vector Word 60 :=
  ⟨(expandLoop 52 8 0 key.toList).toArray, by simp [length_expandLoop]⟩

/-- KEYEXP (R166): RK takes the schedule of KEY, and KEY_VALID is set. -/
def execKeyexp (s : State) : Host.Outcome State Fault Refusal :=
  command .keyexp (fun s => { s with rk := expand s.key, keyValid := true }) s

end Sys2Proof.Machine
end

