-- ==== Sys2Proof/Machine/Cipher.lean ====
section
/-! DEFINITION. The round functions, the cipher and its inverse, ENC and DEC (42_block_cipher.md). -/

namespace Sys2Proof.Machine

open Sys2Proof

/-- `AddRoundKey(S, W, n)`: `S'[c] = S[c] ^ W[4n+c]`, for `n` in 0..14 (R180). -/
def addRoundKey (S : Columns) (W : Vector Word 60) (n : Nat) : Columns :=
  Vector.ofFn fun c => S[c] ^^^ W[4 * n + c.val]?.getD 0

/-- `SubBytes(S)`: `s'[r][c] = SBOX(s[r][c])` (R181). -/
def subBytes (S : Columns) : Columns := ofBytes fun r c => sbox (byteAt S r c)

/-- `ShiftRows(S)`: `s'[r][c] = s[r][(c + r) mod 4]` (R182). -/
def shiftRows (S : Columns) : Columns := ofBytes fun r c => byteAt S r (c + r)

/-- One column under the mixing matrix `circ(2, 3, 1, 1)` (R183). -/
def mixColumn (a0 a1 a2 a3 : Byte) : Word :=
  word (double a0 ^^^ times3 a1 ^^^ a2 ^^^ a3)
       (a0 ^^^ double a1 ^^^ times3 a2 ^^^ a3)
       (a0 ^^^ a1 ^^^ double a2 ^^^ times3 a3)
       (times3 a0 ^^^ a1 ^^^ a2 ^^^ double a3)

/-- `MixColumns(S)` (R183). -/
def mixColumns (S : Columns) : Columns :=
  Vector.ofFn fun c => mixColumn (byteAt S 0 c) (byteAt S 1 c) (byteAt S 2 c) (byteAt S 3 c)

/-- `InvSubBytes(S)`: INV_SBOX on every byte (R187, R207). -/
def invSubBytes (S : Columns) : Columns := ofBytes fun r c => invSbox (byteAt S r c)

/-- `InvShiftRows(S)`: `s'[r][c] = s[r][(c - r) mod 4]` (R184). -/
def invShiftRows (S : Columns) : Columns := ofBytes fun r c => byteAt S r (c - r)

/-- One column under the inverse matrix `circ(0x0E, 0x0B, 0x0D, 0x09)` (R185). -/
def invMixColumn (a0 a1 a2 a3 : Byte) : Word :=
  word (gmul 0x0E a0 ^^^ gmul 0x0B a1 ^^^ gmul 0x0D a2 ^^^ gmul 0x09 a3)
       (gmul 0x09 a0 ^^^ gmul 0x0E a1 ^^^ gmul 0x0B a2 ^^^ gmul 0x0D a3)
       (gmul 0x0D a0 ^^^ gmul 0x09 a1 ^^^ gmul 0x0E a2 ^^^ gmul 0x0B a3)
       (gmul 0x0B a0 ^^^ gmul 0x0D a1 ^^^ gmul 0x09 a2 ^^^ gmul 0x0E a3)

/-- `InvMixColumns(S)` (R185). -/
def invMixColumns (S : Columns) : Columns :=
  Vector.ofFn fun c => invMixColumn (byteAt S 0 c) (byteAt S 1 c) (byteAt S 2 c) (byteAt S 3 c)

/-- One of the rounds 1..13: substitute, shift, mix, add round key `n` (R186). -/
def cipherRound (W : Vector Word 60) (n : Nat) (S : Columns) : Columns :=
  addRoundKey (mixColumns (shiftRows (subBytes S))) W n

/-- The rounds 1 to `n` in rising order (R186). -/
def cipherRounds (W : Vector Word 60) : Nat → Columns → Columns
  | 0, S => S
  | n + 1, S => cipherRound W (n + 1) (cipherRounds W n S)

/-- `Cipher(IN, W)`: round 0, rounds 1..13, and round 14 without the mixing (R186). -/
def cipher (input : Columns) (W : Vector Word 60) : Columns :=
  addRoundKey (shiftRows (subBytes (cipherRounds W 13 (addRoundKey input W 0)))) W 14

/-- The inverse of round `n`, 1..13: add round key `n`, unmix, unshift, unsubstitute (R187). -/
def invCipherRound (W : Vector Word 60) (n : Nat) (S : Columns) : Columns :=
  invSubBytes (invShiftRows (invMixColumns (addRoundKey S W n)))

/-- The inverse rounds `n` down to 1 (R187). -/
def invCipherRounds (W : Vector Word 60) : Nat → Columns → Columns
  | 0, S => S
  | n + 1, S => invCipherRounds W n (invCipherRound W (n + 1) S)

/-- `InvCipher(IN, W)` (R187). -/
def invCipher (input : Columns) (W : Vector Word 60) : Columns :=
  addRoundKey (invCipherRounds W 13 (invSubBytes (invShiftRows (addRoundKey input W 14)))) W 0

/-- ENC (R186): STATE and DOUT take the cipher of DIN under RK. -/
def execEnc (s : State) : Host.Outcome State Fault Refusal :=
  command .enc (fun s => { s with st := cipher s.din s.rk, dout := cipher s.din s.rk }) s

/-- DEC (R188): STATE and DOUT take the inverse cipher of DIN under RK. -/
def execDec (s : State) : Host.Outcome State Fault Refusal :=
  command .dec (fun s => { s with st := invCipher s.din s.rk, dout := invCipher s.din s.rk }) s

end Sys2Proof.Machine
end

