-- ==== Sys2Proof/Machine/Control.lean ====
section
/-! DEFINITION. The control commands NOP and ZEROIZE (45_control.md). -/

namespace Sys2Proof.Machine

open Sys2Proof

/-- NOP (R250): the issue checks of every command, and nothing else. It is never accepted and has no completion: its
sequencer's end is reached by no run, and would end the command as any completion does (log 16). -/
def execNop (s : State) : Host.Outcome State Fault Refusal :=
  match s.agent with
  | .host =>
    match issueError .nop s with
    | some e => .next (s.raiseError e)
    | none => .next s
  | .sequencer => .next s.finish

/-- What ZEROIZE clears (R252): every key, data and operand register, the result registers and KEY_VALID; CTRL and the
error record stay. -/
def clearSecrets (s : State) : State :=
  { s with
    key := Vector.replicate 8 0
    din := Vector.replicate 4 0
    dout := Vector.replicate 4 0
    st := Vector.replicate 4 0
    rk := Vector.replicate 60 0
    keyValid := false
    base := setInt s.params.mxWords s.base 0
    exp := setInt s.params.mxWords s.exp 0
    mod := setInt s.params.mxWords s.mod 0
    res := setInt s.params.mxWords s.res 0 }

/-- ZEROIZE (R252). -/
def execZeroize (s : State) : Host.Outcome State Fault Refusal := command .zeroize clearSecrets s

end Sys2Proof.Machine
end

