-- ==== Sys2Proof/Machine/ModExp.lean ====
section
/-! DEFINITION. Modular exponentiation and MODEXP (44_modexp.md). -/

namespace Sys2Proof.Machine

open Sys2Proof

/-- The square-and-multiply loop, `k` bits of the exponent still to look at, lowest first: `x` is the power
`b^(2^i) mod m` and `r` the product so far (R231). -/
def powModLoop : Nat → Nat → Nat → Nat → Nat → Nat
  | 0, _, _, _, r => r
  | k + 1, e, m, x, r => powModLoop k (e / 2) m (x * x % m) (if e % 2 = 1 then r * x % m else r)

/-- `PowMod(b, e, m)` over `bits` exponent bits, exact on unbounded numbers (R231). That its value is `b^e mod m` is a
statement of its own (log 12). -/
def powMod (bits b e m : Nat) : Nat := powModLoop bits e m (b % m) (1 % m)

/-- MODEXP (R232): `SetInt(RES, PowMod(Int(BASE), Int(EXP), Int(MOD)))`, on operands of `N = 32·MX_WORDS` bits. -/
def execModexp (s : State) : Host.Outcome State Fault Refusal :=
  command .modexp
    (fun s =>
      { s with
        res := setInt s.params.mxWords s.res (powMod (32 * s.params.mxWords) s.baseInt s.expInt s.modInt) })
    s

end Sys2Proof.Machine
end

