-- ==== Sys2Proof/Machine/RoundSteps.lean ====
section
/-! DEFINITION. The round-step commands, each one function of 42_block_cipher.md on STATE (43_round_step_ops.md). -/

namespace Sys2Proof.Machine

open Sys2Proof

/-- ST_LOAD (R201): `STATE[c] <- DIN[c]`. -/
def execStLoad (s : State) : Host.Outcome State Fault Refusal :=
  command .stLoad (fun s => { s with st := s.din }) s

/-- SUB_BYTES (R202). -/
def execSubBytes (s : State) : Host.Outcome State Fault Refusal :=
  command .subBytes (fun s => { s with st := subBytes s.st }) s

/-- SHIFT_ROWS (R203). -/
def execShiftRows (s : State) : Host.Outcome State Fault Refusal :=
  command .shiftRows (fun s => { s with st := shiftRows s.st }) s

/-- MIX_COLUMNS (R204). -/
def execMixColumns (s : State) : Host.Outcome State Fault Refusal :=
  command .mixColumns (fun s => { s with st := mixColumns s.st }) s

/-- ADD_RK with index `n` (R205): `STATE[c] <- STATE[c] ^ RK[4n+c]`; `n = 15..255` is never read as `n mod 15`, it is
turned away at issue. -/
def execAddRk (n : Byte) (s : State) : Host.Outcome State Fault Refusal :=
  command (.addRk n) (fun s => { s with st := addRoundKey s.st s.rk n.toNat }) s

/-- ST_STORE (R206): `DOUT[c] <- STATE[c]`. -/
def execStStore (s : State) : Host.Outcome State Fault Refusal :=
  command .stStore (fun s => { s with dout := s.st }) s

/-- INV_SUB_BYTES (R207). -/
def execInvSubBytes (s : State) : Host.Outcome State Fault Refusal :=
  command .invSubBytes (fun s => { s with st := invSubBytes s.st }) s

/-- INV_SHIFT_ROWS (R208). -/
def execInvShiftRows (s : State) : Host.Outcome State Fault Refusal :=
  command .invShiftRows (fun s => { s with st := invShiftRows s.st }) s

/-- INV_MIX_COLUMNS (R209). -/
def execInvMixColumns (s : State) : Host.Outcome State Fault Refusal :=
  command .invMixColumns (fun s => { s with st := invMixColumns s.st }) s

end Sys2Proof.Machine
end

