-- ==== Sys2Proof/Machine/Dispatch.lean ====
section
/-! DEFINITION. One arm per command. -/

namespace Sys2Proof.Machine

open Sys2Proof

/-- The meaning of a command in the step its agent is taking: issued by the host (R262), completed by the sequencer
(R297). -/
def exec (i : Instr) (s : State) : Host.Outcome State Fault Refusal :=
  match i with
  | .nop => Sys2Proof.Machine.execNop s
  | .keyexp => Sys2Proof.Machine.execKeyexp s
  | .enc => Sys2Proof.Machine.execEnc s
  | .dec => Sys2Proof.Machine.execDec s
  | .zeroize => Sys2Proof.Machine.execZeroize s
  | .stLoad => Sys2Proof.Machine.execStLoad s
  | .subBytes => Sys2Proof.Machine.execSubBytes s
  | .shiftRows => Sys2Proof.Machine.execShiftRows s
  | .mixColumns => Sys2Proof.Machine.execMixColumns s
  | .addRk n => Sys2Proof.Machine.execAddRk n s
  | .stStore => Sys2Proof.Machine.execStStore s
  | .invSubBytes => Sys2Proof.Machine.execInvSubBytes s
  | .invShiftRows => Sys2Proof.Machine.execInvShiftRows s
  | .invMixColumns => Sys2Proof.Machine.execInvMixColumns s
  | .modexp => Sys2Proof.Machine.execModexp s

end Sys2Proof.Machine
end

