-- ==== Sys2Proof/Machine/Bus.lean ====
section
/-! DEFINITION. What each turn of the step relation does: a host access to the register window (20_memory.md), the
sequencer's completion, and reset (70_reset_and_hazards.md). -/

namespace Sys2Proof.Machine

open Sys2Proof

/-- `issue(v)` (R262): BUSY comes before decoding, an illegal word raises E_ILLEGAL, and a legal one is the command it
decodes to, with its own checks. -/
def issueWord (v : Word) (s : State) : Host.Outcome State Fault Refusal :=
  match decode v with
  | .command i => exec i s
  | .illegal _ => .next (s.raiseError (if s.busy then .busy else .illegal))

/-- A write to an operand register: refused with E_BUSY while a command is in flight, else done (R74, R299). -/
def writeOperand (store : State → State) (s : State) : State :=
  if s.busy then s.raiseError .busy else store s

/-- A write to element `i` of BASE, EXP or MOD: ignored when the element does not exist (R44, R74). -/
def writeElem (i : Fin 128) (store : State → State) (s : State) : State :=
  if i.val < s.params.mxWords then writeOperand store s else s

/-- A legal write of `v` (R74). -/
def writeReg (r : Reg) (v : Word) (s : State) : Host.Outcome State Fault Refusal :=
  match r with
  | .ctrl => .next (s.writeCtrl v)
  | .status => .next (s.writeStatus v)
  | .cmd => issueWord v s
  | .key i => .next (writeOperand (fun s => { s with key := s.key.set i v, keyValid := false }) s)
  | .din i => .next (writeOperand (fun s => { s with din := s.din.set i v }) s)
  | .base i => .next (writeElem i (fun s => { s with base := s.base.set i v }) s)
  | .exp i => .next (writeElem i (fun s => { s with exp := s.exp.set i v }) s)
  | .mod i => .next (writeElem i (fun s => { s with mod := s.mod.set i v }) s)
  | .id => .next s
  | .cfg => .next s
  | .dout _ => .next s
  | .st _ => .next s
  | .rk _ => .next s
  | .res _ => .next s
  | .reserved => .next s

/-- The bus port's answer to an access (R71, R76). -/
def State.respond (r : Response) (s : State) : State := { s with resp := some r }

/-- One access at an offset of the window: a legal read or write, or the bus error of an illegal access, which changes
nothing else (R71, R73, R74, R76). -/
def accessAt (off : BitVec 12) (a : Access) (s : State) : Host.Outcome State Fault Refusal :=
  match a with
  | .read _ size =>
    if LegalAccess size off then .next (s.respond (.data (s.readReg (locate off)))) else .next (s.respond .busError)
  | .write _ size v =>
    if LegalAccess size off then writeReg (locate off) v (s.respond .okay) else .next (s.respond .busError)

/-- The bus address of an access. -/
def Access.addr : Access → Nat
  | .read addr _ => addr
  | .write addr _ _ => addr

/-- The host's turn: an access outside the window does not reach the block (R70), one made while `rst` is asserted is
refused (R291), any other is performed. -/
def hostTurn (a : Access) (s : State) : Host.Outcome State Fault Refusal :=
  match windowOffset s.params a.addr with
  | none => .next s
  | some off => if s.rst then .refused .accessDuringReset else accessAt off a { s with agent := .host }

/-- The sequencer's turn: `complete()` runs the pending command's completion, and is enabled exactly when `busy = 1`
(R294, R297); an idle block holds every register (R278). -/
def sequencerTurn (s : State) : Host.Outcome State Fault Refusal :=
  if s.busy then
    match s.pending with
    | some i => exec i { s with agent := .sequencer }
    | none => .fault .lostCommand
  else .next s

/-- The reset step: the whole state takes its reset value and any command in flight is abandoned (R290, R291). The
build's parameters and the turns still to come are not the block's to change (log 14). -/
def resetTurn (asserted : Bool) (s : State) : State :=
  { State.resetWith s.params with rst := asserted, schedule := s.schedule }

/-- One turn (R294). -/
def takeTurn (t : Turn) (s : State) : Host.Outcome State Fault Refusal :=
  match t with
  | .host a => hostTurn a s
  | .sequencer => sequencerTurn s
  | .reset asserted => .next (resetTurn asserted s)

/-- The host access that issues a command word: a 4-byte write to CMD (R35, R107). -/
def cmdWrite (p : Params) (v : Word) : Access := .write (p.baseAddr + cmdOffset) .word v

end Sys2Proof.Machine
end

