-- ==== Sys2Proof/Machine/Step.lean ====
section
/-! DEFINITION. One step of the machine, and where a command word stands so that the next step runs it. -/

namespace Sys2Proof.Machine

open Sys2Proof

/-- One step: the first turn of the schedule is taken and dropped. When no turn is left, the sequencer has it, so that
a command in flight completes (R294, R296, R298; log 1). -/
def step (s : State) : Host.Outcome State Fault Refusal :=
  match s.schedule with
  | [] => sequencerTurn s
  | t :: rest => takeTurn t { s with schedule := rest }

/-- `s` with the host about to write the command word `w` to CMD, `rst` released (R35, R291): the very next step issues
that command (log 2). -/
def State.withFetchWord (s : State) (nbits w : Nat) : State :=
  { s with
    rst := false
    schedule := .host (cmdWrite s.params (BitVec.ofNat 32 (w % 2 ^ nbits))) :: s.schedule }

end Sys2Proof.Machine
end

