-- ==== Sys2Proof/Machine/HostProgram.lean ====
section
/-! DEFINITION. The host's access notation and its pseudo-instructions (R107, R108), and a program of it running beside
the block: the draw says which agent acts next (R294, R296), and a WAIT reads STATUS until it shows BUSY = 0. Every
draw is one `step` of the machine, so nothing here gives the block a behaviour of its own. -/

namespace Sys2Proof.Machine

open Sys2Proof

/-- `offset(reg, i)`: the register's start offset plus `4i` (R72, R107). A reserved place has no name to write it by. -/
def offsetOf : Reg → Option Nat
  | .id => some 0x000
  | .cfg => some 0x004
  | .ctrl => some 0x008
  | .status => some 0x00C
  | .cmd => some cmdOffset
  | .key i => some (0x040 + 4 * i.val)
  | .din i => some (0x060 + 4 * i.val)
  | .dout i => some (0x070 + 4 * i.val)
  | .st i => some (0x080 + 4 * i.val)
  | .rk i => some (0x100 + 4 * i.val)
  | .base i => some (0x200 + 4 * i.val)
  | .exp i => some (0x400 + 4 * i.val)
  | .mod i => some (0x600 + 4 * i.val)
  | .res i => some (0x800 + 4 * i.val)
  | .reserved => none

/-- One host access at an offset of the window, `BusRead(off)` or `BusWrite(off, v)` (R12), or the loop of a WAIT. -/
inductive HostOp where
  | read (off : BitVec 12)
  | write (off : BitVec 12) (v : Word)
  /-- `L: RD STATUS ; repeat L while bit 0 (BUSY) = 1` (R108). -/
  | waitIdle
deriving DecidableEq, Repr

/-- A statement of the notation (R107), the pseudo-instructions with it (R108). -/
inductive HostStmt where
  /-- `WR <reg>[<i>], <imm32>`. -/
  | wr (r : Reg) (v : Word)
  /-- `RD <reg>[<i>]`. -/
  | rd (r : Reg)
  /-- `CMD <MNEMONIC>`, `CMD ADD_RK, <n>`. -/
  | cmd (i : Instr)
  /-- `WAIT`. -/
  | wait
  /-- `CLRDONE`. -/
  | clrDone
  /-- `CLRERR`. -/
  | clrErr
  /-- `LDKEY` with its 32 bytes. -/
  | ldKey (k : Vector Byte 32)
  /-- `LDBLK` with its 16 bytes. -/
  | ldBlk (b : Vector Byte 16)
  /-- `LDINT BASE, x`. -/
  | ldBase (x : Nat)
  /-- `LDINT EXP, x`. -/
  | ldExp (x : Nat)
  /-- `LDINT MOD, x`. -/
  | ldMod (x : Nat)
  /-- `RDBLK DOUT`. -/
  | rdDout
  /-- `RDBLK STATE`. -/
  | rdState
  /-- `RDINT RES, k`. -/
  | rdRes (k : Nat)
deriving DecidableEq, Repr

/-- One 32-bit write of a named register element. -/
def wrOps (r : Reg) (v : Word) : List HostOp := (offsetOf r).toList.map fun o => .write (BitVec.ofNat 12 o) v

/-- One 32-bit read of a named register element. -/
def rdOps (r : Reg) : List HostOp := (offsetOf r).toList.map fun o => .read (BitVec.ofNat 12 o)

/-- `LDINT`: element `i` takes `x[32i+31:32i]`, for `i` from 0 to `MX_WORDS - 1` (R108). -/
def ldOps (p : Params) (reg : Fin 128 → Reg) (x : Nat) : List HostOp :=
  ((List.finRange 128).filter fun i => i.val < p.mxWords).flatMap fun i =>
    wrOps (reg i) (BitVec.ofNat 32 (x >>> (32 * i.val)))

/-- What a statement expands to (R107, R108). -/
def HostStmt.ops (p : Params) : HostStmt → List HostOp
  | .wr r v => wrOps r v
  | .rd r => rdOps r
  | .cmd i => wrOps .cmd (encode i)
  | .wait => [.waitIdle]
  | .clrDone => wrOps .status 0x00000002
  | .clrErr => wrOps .status 0x00000008
  | .ldKey k => (List.finRange 8).flatMap fun j =>
      wrOps (.key j) (word k[4 * j.val] k[4 * j.val + 1] k[4 * j.val + 2] k[4 * j.val + 3])
  | .ldBlk b => (List.finRange 4).flatMap fun c =>
      wrOps (.din c) (word b[4 * c.val] b[4 * c.val + 1] b[4 * c.val + 2] b[4 * c.val + 3])
  | .ldBase x => ldOps p .base x
  | .ldExp x => ldOps p .exp x
  | .ldMod x => ldOps p .mod x
  | .rdDout => (List.finRange 4).flatMap fun c => rdOps (.dout c)
  | .rdState => (List.finRange 4).flatMap fun c => rdOps (.st c)
  | .rdRes k => ((List.finRange 128).filter fun i => i.val < k).flatMap fun i => rdOps (.res i)

/-- A program, statement by statement (R107). -/
def programOps (p : Params) (prog : List HostStmt) : List HostOp := prog.flatMap (HostStmt.ops p)

/-- The bus access an operation makes when the host has the turn; a WAIT reads STATUS. -/
def HostOp.access (p : Params) : HostOp → Access
  | .read off => .read (p.baseAddr + off.toNat) .word
  | .write off v => .write (p.baseAddr + off.toNat) .word v
  | .waitIdle => .read (p.baseAddr + 0x00C) .word

/-- Who acts next: any enabled step may be taken (R294), and the model does not fix how many host steps come before a
completion (R296). -/
inductive Draw where
  | host
  | sequencer
  | reset (asserted : Bool)
deriving DecidableEq, Repr

/-- A host's program running on the block: the block, what the host has still to do, and the values its RD statements
recorded (R107). -/
structure HostRun where
  block : State
  todo : List HostOp
  recorded : List Word
deriving DecidableEq, Repr

namespace HostRun

/-- A program about to run on a block. -/
def start (s : State) (prog : List HostStmt) : HostRun :=
  { block := s, todo := programOps s.params prog, recorded := [] }

/-- The block's turn that a draw is: none when the host is drawn and has nothing left to do. -/
def turn (r : HostRun) : Draw → Option Turn
  | .host => r.todo.head?.map fun op => .host (op.access r.block.params)
  | .sequencer => some .sequencer
  | .reset b => some (.reset b)

/-- The value the last access read, if it read one. -/
def answer (s : State) : Option Word :=
  match s.resp with
  | some (.data v) => some v
  | _ => none

/-- The host after a draw that left the block `b`: a read is recorded, and a WAIT is over at the first read that shows
BUSY = 0 (R107, R108). The host's program is not the block's: a reset leaves it where it was (log 25). -/
def advance (r : HostRun) (d : Draw) (b : State) : HostRun :=
  match d, r.todo with
  | .host, .read _ :: rest => { block := b, todo := rest, recorded := r.recorded ++ (answer b).toList }
  | .host, .write _ _ :: rest => { r with block := b, todo := rest }
  | .host, .waitIdle :: rest =>
    { r with block := b, todo := if (answer b).any fun v => v.getLsbD 0 then .waitIdle :: rest else rest }
  | .host, [] => { r with block := b }
  | .sequencer, _ => { r with block := b }
  | .reset _, _ => { r with block := b }

/-- One draw: one step of the block on that turn. -/
def draw (r : HostRun) (d : Draw) : Host.Outcome HostRun Fault Refusal :=
  match r.turn d with
  | none => .next r
  | some t =>
    match step { r.block with schedule := t :: r.block.schedule } with
    | .next b => .next (r.advance d b)
    | .fault f => .fault f
    | .refused x => .refused x

/-- A run: a claim about a program is one about every list of draws (R296). -/
def run : List Draw → HostRun → Host.Outcome HostRun Fault Refusal
  | [], r => .next r
  | d :: ds, r =>
    match r.draw d with
    | .next r' => run ds r'
    | .fault f => .fault f
    | .refused x => .refused x

/-- The run has ended: the host has performed its last statement and no command is in flight (R307). -/
def Ended (r : HostRun) : Prop := r.todo = [] ∧ r.block.busy = false

end HostRun

end Sys2Proof.Machine
end

