-- ==== Sys2Proof/Safety.lean ====
section
/-! DEFINITION. What the block keeps true between steps, and what counts as a safe run, in the terms the statements use. -/

namespace Sys2Proof.Machine

open Sys2Proof

/-- A command in flight passed its issue checks, and nothing it relies on can change before it completes (R262, R300):
it is not NOP (R250), its index is legal, the build has it, its key is valid, its modulus is not zero, and KEY_VALID
is 0 while KEYEXP runs (R36). -/
structure Ready (s : State) (i : Instr) : Prop where
  notNop : i ≠ .nop
  wellFormed : i.wf = true
  hasInverse : needsInverse i = true → s.params.hasDec = true
  keyed : needsKey i = true → s.keyValid = true
  modulus : i = .modexp → s.modInt ≠ 0
  keyexpClears : i = .keyexp → s.keyValid = false

/-- The invariant every step keeps. -/
structure Invariant (s : State) : Prop where
  /-- The build is a legal one (R8). -/
  legalBuild : s.params.Legal
  /-- Between steps the agent is the host (log 4). -/
  betweenSteps : s.agent = .host
  /-- "`pending` is `none` exactly when `busy = 0`" (R36). -/
  pendingIffBusy : s.pending.isSome = s.busy
  /-- The pending command is one that may run (R262, R300). -/
  pendingReady : ∀ i, s.pending = some i → Ready s i
  /-- DONE is 0 while a command is in flight (R36). -/
  busyNotDone : s.busy = true → s.done = false
  /-- `ERR = 0 ⇒ ERR_CODE = 0` (R34), and an error always has a code (R260). -/
  errHasCode : s.err = false ↔ s.errCode = .none
  /-- "STATUS.KEY_VALID = 1 says that RK holds the schedule expanded from the current KEY contents" (R38). -/
  keyValidExpanded : s.keyValid = true → s.rk = expand s.key
  /-- The elements that do not exist hold nothing (R44, R45; log 13). -/
  unimplementedZero : ∀ i : Fin 128, s.params.mxWords ≤ i.val →
    s.base[i] = 0 ∧ s.exp[i] = 0 ∧ s.mod[i] = 0 ∧ s.res[i] = 0
  /-- While `rst` is asserted every piece of state has its reset value (R290). -/
  resetHolds : s.rst = true → s = resetTurn true s

/-- A run is safe when no step of it faults. A refusal is not a fault: it is how the model answers an access the
platform must not make (R291). -/
def SafeRun (s : State) : Prop := ∀ n r, Host.Core.run core n s ≠ .fault r

end Sys2Proof.Machine
end

