-- ==== Sys2Proof/Certificates/Slice0/Obligations.lean ====
section
/-! DEFINITION. The statements for the provers, with the few words they share (`Claim`). A meaning is stated by an
equation for its whole next state, so that each such equation is also the command's frame: every field not named in it
is unchanged. -/

namespace Sys2Proof.Claim

open Sys2Proof Sys2Proof.Machine

/-- The state `accept` leaves for any command but KEYEXP: BUSY and `pending` set, DONE cleared, all else unchanged. -/
def accepted (i : Instr) (s : State) : State := { s with busy := true, pending := some i, done := false }

/-- The state an error leaves: the error recorded if none was, all else unchanged. -/
def recorded (e : ErrCode) (s : State) : State := if s.err = true then s else { s with err := true, errCode := e }

/-- The state a completion leaves when the registers it writes are already those of `s`: BUSY and `pending` cleared,
DONE set, the agent put back, all else unchanged. -/
def completed (s : State) : State := { s with busy := false, pending := none, done := true, agent := .host }

/-- The part every command's rule has in common: its one word, E_BUSY while a command is in flight, and E_ILLEGAL for
every other word with its opcode (ARG ≠ 0 or RSVD ≠ 0). -/
def IssuedAs (i : Instr) (w : Word) : Prop :=
  encode i = w ∧ decode w = .command i ∧
  (∀ s : State, s.agent = .host → s.busy = true → exec i s = .next (recorded .busy s)) ∧
  (∀ (v : Word) (s : State), s.agent = .host → s.busy = false → v.extractLsb' 0 8 = w.extractLsb' 0 8 → v ≠ w →
    issueWord v s = .next (recorded .illegal s))

/-- The turns that issue each command in order and let it complete, with no other access in between. -/
def commandTurns (p : Params) (cmds : List Instr) : List Turn :=
  cmds.flatMap fun i => [.host (cmdWrite p (encode i)), .sequencer]

/-- The four turns that write a block to DIN. -/
def dinWrites (p : Params) (X : Columns) : List Turn :=
  [.host (.write (p.baseAddr + 0x060) .word X[0]), .host (.write (p.baseAddr + 0x064) .word X[1]),
   .host (.write (p.baseAddr + 0x068) .word X[2]), .host (.write (p.baseAddr + 0x06C) .word X[3])]

/-- The round-step commands of one whole encryption, in R210's order. -/
def encSteps : List Instr :=
  [.stLoad, .addRk 0] ++
  (List.range 13).flatMap (fun k => [.subBytes, .shiftRows, .mixColumns, .addRk (BitVec.ofNat 8 (k + 1))]) ++
  [.subBytes, .shiftRows, .addRk 14, .stStore]

/-- The round-step commands of one whole decryption, in R187's order. -/
def decSteps : List Instr :=
  [.stLoad, .addRk 14, .invShiftRows, .invSubBytes] ++
  (List.range 13).flatMap
    (fun k => [.addRk (BitVec.ofNat 8 (13 - k)), .invMixColumns, .invShiftRows, .invSubBytes]) ++
  [.addRk 0, .stStore]

/-- An idle block with `rst` released, ready for the host's next command. -/
abbrev Idle (s : State) : Prop := s.busy = false ∧ s.rst = false ∧ s.agent = .host

/-- One legal read at window offset `off` leaves everything but the bus port's answer as it was, and answers `v`. -/
def ReadsAs (s : State) (off : Nat) (v : Word) : Prop :=
  ∀ addr, accessAt (BitVec.ofNat 12 off) (.read addr .word) s = .next { s with resp := some (.data v) }

/-- One legal write of `v` at window offset `off` answers OKAY and otherwise does `effect`. -/
def WritesAs (s : State) (off : Nat) (v : Word) (effect : State → State) : Prop :=
  ∀ addr, accessAt (BitVec.ofNat 12 off) (.write addr .word v) s =
    .next (effect { s with resp := some .okay })

/-- The next turn is the host's 4-byte write of `v` at window offset `off`. -/
def HostWrites (s : State) (off : Nat) (v : Word) : Prop :=
  ∃ rest, s.schedule = .host (.write (s.params.baseAddr + off) .word v) :: rest

/-- The next turn is a reset. -/
def ResetsNext (s : State) : Prop := ∃ b rest, s.schedule = .reset b :: rest

/-- A command in flight in `s` is no longer in flight in `t`. -/
def Completes (s t : State) : Prop := s.busy = true ∧ t.busy = false

/-- The reserved offsets of the window (R72), as multiples of 4. -/
def ReservedOffset (off : Nat) : Prop :=
  off % 4 = 0 ∧
  ((0x014 ≤ off ∧ off ≤ 0x03C) ∨ (0x090 ≤ off ∧ off ≤ 0x0FC) ∨ (0x1F0 ≤ off ∧ off ≤ 0x1FC) ∨
    (0xA00 ≤ off ∧ off ≤ 0xFFC))

/-- The opcode values that decode (R105). -/
def assignedOps : List Byte :=
  [0x00, 0x01, 0x02, 0x03, 0x04, 0x10, 0x11, 0x12, 0x13, 0x14, 0x15, 0x19, 0x1A, 0x1B, 0x20]

/-- The legal command words (R106). -/
def legalWords : List (Word × Instr) :=
  [(0x00000000, .nop), (0x00000001, .keyexp), (0x00000002, .enc), (0x00000003, .dec), (0x00000004, .zeroize),
   (0x00000010, .stLoad), (0x00000011, .subBytes), (0x00000012, .shiftRows), (0x00000013, .mixColumns),
   (0x00000015, .stStore), (0x00000019, .invSubBytes), (0x0000001A, .invShiftRows),
   (0x0000001B, .invMixColumns), (0x00000020, .modexp)] ++
  [(0x00000014, .addRk 0), (0x00000114, .addRk 1), (0x00000214, .addRk 2), (0x00000314, .addRk 3),
   (0x00000414, .addRk 4), (0x00000514, .addRk 5), (0x00000614, .addRk 6), (0x00000714, .addRk 7),
   (0x00000814, .addRk 8), (0x00000914, .addRk 9), (0x00000A14, .addRk 10), (0x00000B14, .addRk 11),
   (0x00000C14, .addRk 12), (0x00000D14, .addRk 13), (0x00000E14, .addRk 14)]

end Sys2Proof.Claim

open Sys2Proof Sys2Proof.Machine Sys2Proof.Claim

/-! ## Command words -/

/-- Decoding the encoding of any well-formed command gives it back, every round-key index included (R102, R105, R106). -/
def Obligations.DecodeOfEncode : Prop := ∀ i : Instr, i.wf = true → decode (encode i) = .command i

/-- A word that decodes is the encoding of what it decodes to, and that command is well formed: every command has
exactly one word (R105). -/
def Obligations.EncodeOfDecode : Prop :=
  ∀ (v : Word) (i : Instr), decode v = .command i → i.wf = true ∧ encode i = v

/-- R106: the legal command words, each with its mnemonic, are these 29 and no others (the spec's own inference from R100
and R103). -/
def Obligations.LegalWordsAreTheListed : Prop :=
  (∀ (v : Word) (i : Instr), decode v = .command i ↔ (v, i) ∈ legalWords) ∧
  legalWords.length = 29 ∧ (legalWords.map Prod.fst).Nodup

/-- R104: a word is illegal exactly when one of the four conditions holds; issuing it raises E_ILLEGAL and does nothing
else (when no command is in flight); the inverse opcodes stay legal words when `HAS_DEC = 0` and raise E_UNSUPPORTED. -/
def Obligations.IllegalWordsAreRefused : Prop :=
  (∀ v : Word, (∃ why, decode v = .illegal why) ↔
    (v.extractLsb' 16 16 ≠ 0 ∨ v.extractLsb' 0 8 ∉ assignedOps ∨
      (v.extractLsb' 0 8 ≠ 0x14 ∧ v.extractLsb' 8 8 ≠ 0) ∨
      (v.extractLsb' 0 8 = 0x14 ∧ 14 < (v.extractLsb' 8 8).toNat))) ∧
  (∀ (v : Word) (why : Illegal) (s : State), decode v = .illegal why → s.agent = .host → s.busy = false →
    issueWord v s = .next (recorded .illegal s)) ∧
  (∀ p ∈ [((0x03 : Word), Instr.dec), (0x19, .invSubBytes), (0x1A, .invShiftRows), (0x1B, .invMixColumns)],
    decode p.1 = .command p.2 ∧
    ∀ s : State, s.agent = .host → s.busy = false → s.params.hasDec = false →
      exec p.2 s = .next (recorded .unsupported s))

/-- R109's written-out words: what each of them is, and what the command syntax writes (the spec's own inference from
R100 and R103). -/
def Obligations.WrittenOutWordsDecode : Prop :=
  encode .keyexp = 0x00000001 ∧ decode 0x00000001 = .command .keyexp ∧
  encode (.addRk 0) = 0x00000014 ∧ decode 0x00000014 = .command (.addRk 0) ∧
  encode (.addRk 14) = 0x00000E14 ∧ decode 0x00000E14 = .command (.addRk 14) ∧
  decode 0x00000F14 = .illegal .roundKeyIndex ∧
  decode 0x00010002 = .illegal .reservedBits ∧
  decode 0x00000102 = .illegal .argNotZero ∧
  decode 0x00000016 = .illegal .unassignedOp

/-! ## Steps -/

/-- With `rst` released, a step whose turn is a host access inside the window is that access, with the turn taken and
the host as agent (R70, R71, R294); and when the access is a write of a legal command word to CMD, it is `exec` of the
decoded command, the bus answering OKAY (R35, R74, R262). -/
def Obligations.StepIssuesTheDecodedCommand : Prop :=
  (∀ (s : State) (a : Access) (rest : List Turn) (off : BitVec 12),
    s.rst = false → s.schedule = .host a :: rest → windowOffset s.params a.addr = some off →
    step s = accessAt off a { s with schedule := rest, agent := .host }) ∧
  (∀ (p : Params) (off : BitVec 12), windowOffset p (p.baseAddr + off.toNat) = some off) ∧
  (∀ (s : State) (rest : List Turn) (v : Word) (i : Instr),
    s.rst = false → s.schedule = .host (.write (s.params.baseAddr + 0x010) .word v) :: rest →
    decode v = .command i →
    step s = exec i { s with schedule := rest, agent := .host, resp := some .okay })

/-- When a command is in flight and the turn is the sequencer's, or no turn is left, the step is `exec` of the pending
command in the sequencer's hands (R294, R297; that an empty schedule gives the sequencer the turn is log 1's choice). -/
def Obligations.StepCompletesThePendingCommand : Prop :=
  ∀ (s : State) (rest : List Turn) (i : Instr),
    (s.schedule = .sequencer :: rest ∨ (s.schedule = [] ∧ rest = [])) → s.busy = true → s.pending = some i →
    step s = exec i { s with schedule := rest, agent := .sequencer }

/-- R262: the issue checks in their order, for every word and every state: the first check that fails is the one error
recorded, NOP then does nothing, and any other command is accepted. -/
def Obligations.IssueChecksInOrder : Prop :=
  (∀ (v : Word) (s : State), s.agent = .host →
    issueWord v s = .next (
      if s.busy = true then recorded .busy s
      else match decode v with
        | .illegal _ => recorded .illegal s
        | .command d =>
          if d ∈ [.dec, .invSubBytes, .invShiftRows, .invMixColumns] ∧ s.params.hasDec = false then
            recorded .unsupported s
          else if (d = .enc ∨ d = .dec ∨ ∃ n, d = .addRk n) ∧ s.keyValid = false then recorded .noKey s
          else if d = .modexp ∧ intOf s.mod s.params.mxWords = 0 then recorded .modZero s
          else if d = .nop then s
          else if d = .keyexp then { accepted .keyexp s with keyValid := false }
          else accepted d s)) ∧
  (∀ s : State, s.agent = .host → s.busy = false → s.keyValid = false →
    issueWord 0x00000F14 s = .next (recorded .illegal s)) ∧
  (∀ s : State, s.agent = .host → s.busy = false → s.keyValid = false → s.params.hasDec = false →
    issueWord 0x00000003 s = .next (recorded .unsupported s))

/-- R263: an error is recorded only when none is, and then changes ERR and ERR_CODE alone; a second one is lost. -/
def Obligations.FirstErrorIsKept : Prop :=
  (∀ (e : ErrCode) (s : State), s.err = false → s.raiseError e = { s with err := true, errCode := e }) ∧
  (∀ (e : ErrCode) (s : State), s.err = true → s.raiseError e = s) ∧
  (∀ (e e' : ErrCode) (s : State), (s.raiseError e).raiseError e' = s.raiseError e)

/-- A step of the host that records an error has changed nothing else of the block: the access is answered OKAY, ERR
and ERR_CODE are set, and every other field is as it was (R264, R74). -/
def Obligations.ErrorsArePrecise : Prop :=
  ∀ (s t : State) (turn : Turn) (rest : List Turn), s.schedule = turn :: rest → step s = .next t →
    s.err = false → t.err = true →
    t.errCode ≠ .none ∧
    t = { s with schedule := rest, agent := .host, resp := some .okay, err := true, errCode := t.errCode }

/-- Only a legal write to CMD, to KEY or DIN, or to an existing element of BASE, EXP or MOD can record an error, and an
operand write records only E_BUSY, only while BUSY = 1 (R261; reads, completions, resets and illegal accesses never
do). -/
def Obligations.OnlyTheseActionsRaise : Prop :=
  ∀ s t : State, step s = .next t → s.err = false → t.err = true →
    ∃ (addr : Nat) (v : Word) (rest : List Turn) (off : BitVec 12),
      s.schedule = .host (.write addr .word v) :: rest ∧ windowOffset s.params addr = some off ∧
      off.toNat % 4 = 0 ∧
      (off.toNat = 0x010 ∨
        (s.busy = true ∧ t.errCode = .busy ∧
          ((0x040 ≤ off.toNat ∧ off.toNat < 0x070) ∨
            (0x200 ≤ off.toNat ∧ off.toNat < 0x800 ∧ off.toNat / 4 % 128 < s.params.mxWords))))

/-! ## The register window -/

/-- R73: what a legal read returns at every offset, in every state, BUSY or not; a read changes nothing. -/
def Obligations.BusReadMap : Prop :=
  ∀ s : State,
    ReadsAs s 0x000 0x4B504331 ∧
    ReadsAs s 0x004 s.cfgWord ∧
    ReadsAs s 0x008 (if s.irqEn = true then 1 else 0) ∧
    ReadsAs s 0x00C (0#20 ++ s.errCode.bits ++ 0#4 ++ BitVec.ofBool s.err ++ BitVec.ofBool s.keyValid ++
      BitVec.ofBool s.done ++ BitVec.ofBool s.busy : BitVec (20 + 4 + 4 + 1 + 1 + 1 + 1)) ∧
    ReadsAs s 0x010 0 ∧
    (∀ i : Fin 8, ReadsAs s (0x040 + 4 * i) s.key[i]) ∧
    (∀ i : Fin 4, ReadsAs s (0x060 + 4 * i) s.din[i]) ∧
    (∀ i : Fin 4, ReadsAs s (0x070 + 4 * i) s.dout[i]) ∧
    (∀ i : Fin 4, ReadsAs s (0x080 + 4 * i) s.st[i]) ∧
    (∀ i : Fin 60, ReadsAs s (0x100 + 4 * i) s.rk[i]) ∧
    (∀ i : Fin 128, ReadsAs s (0x200 + 4 * i) (if i.val < s.params.mxWords then s.base[i] else 0)) ∧
    (∀ i : Fin 128, ReadsAs s (0x400 + 4 * i) (if i.val < s.params.mxWords then s.exp[i] else 0)) ∧
    (∀ i : Fin 128, ReadsAs s (0x600 + 4 * i) (if i.val < s.params.mxWords then s.mod[i] else 0)) ∧
    (∀ i : Fin 128, ReadsAs s (0x800 + 4 * i) (if i.val < s.params.mxWords then s.res[i] else 0)) ∧
    (∀ off, ReservedOffset off → ReadsAs s off 0)

/-- R74: what a legal write does at every offset, in every state. -/
def Obligations.BusWriteMap : Prop :=
  ∀ (s : State) (v : Word),
    WritesAs s 0x008 v (fun u => { u with irqEn := v.getLsbD 0 }) ∧
    WritesAs s 0x00C v (fun u =>
      let u := if v.getLsbD 1 = true then { u with done := false } else u
      if v.getLsbD 3 = true then { u with err := false, errCode := .none } else u) ∧
    (∀ addr, accessAt 0x010 (.write addr .word v) s = issueWord v { s with resp := some .okay }) ∧
    (∀ i : Fin 8, WritesAs s (0x040 + 4 * i) v (fun u =>
      if s.busy = true then recorded .busy u else { u with key := u.key.set i v, keyValid := false })) ∧
    (∀ i : Fin 4, WritesAs s (0x060 + 4 * i) v (fun u =>
      if s.busy = true then recorded .busy u else { u with din := u.din.set i v })) ∧
    (∀ i : Fin 128, WritesAs s (0x200 + 4 * i) v (fun u =>
      if s.params.mxWords ≤ i.val then u
      else if s.busy = true then recorded .busy u else { u with base := u.base.set i v })) ∧
    (∀ i : Fin 128, WritesAs s (0x400 + 4 * i) v (fun u =>
      if s.params.mxWords ≤ i.val then u
      else if s.busy = true then recorded .busy u else { u with exp := u.exp.set i v })) ∧
    (∀ i : Fin 128, WritesAs s (0x600 + 4 * i) v (fun u =>
      if s.params.mxWords ≤ i.val then u
      else if s.busy = true then recorded .busy u else { u with mod := u.mod.set i v })) ∧
    WritesAs s 0x000 v id ∧ WritesAs s 0x004 v id ∧
    (∀ i : Fin 4, WritesAs s (0x070 + 4 * i) v id) ∧ (∀ i : Fin 4, WritesAs s (0x080 + 4 * i) v id) ∧
    (∀ i : Fin 60, WritesAs s (0x100 + 4 * i) v id) ∧ (∀ i : Fin 128, WritesAs s (0x800 + 4 * i) v id) ∧
    (∀ off, ReservedOffset off → WritesAs s off v id)

/-- R71: an access is answered with the bus error exactly when it is not 4 bytes wide or its offset is not a multiple of
4; a legal write is answered OKAY and a legal read OKAY with a value, and every legal access is answered. -/
def Obligations.LegalAccessesAreAnswered : Prop :=
  (∀ (s t : State) (off : BitVec 12) (addr : Nat) (size : AccessSize), accessAt off (.read addr size) s = .next t →
    ((∃ v, t.resp = some (.data v)) ↔ (size = .word ∧ off.toNat % 4 = 0)) ∧
    (t.resp = some .busError ↔ ¬ (size = .word ∧ off.toNat % 4 = 0))) ∧
  (∀ (s t : State) (off : BitVec 12) (addr : Nat) (size : AccessSize) (v : Word),
    accessAt off (.write addr size v) s = .next t →
    (t.resp = some .okay ↔ (size = .word ∧ off.toNat % 4 = 0)) ∧
    (t.resp = some .busError ↔ ¬ (size = .word ∧ off.toNat % 4 = 0))) ∧
  (∀ (s : State) (off : BitVec 12) (a : Access), ∃ t, accessAt off a s = .next t)

/-- R76: a step whose turn is an illegal access inside the window changes no state of the block: nothing but the bus
port's answer, which is the bus error and carries no data. The run goes on. -/
def Obligations.IllegalAccessChangesNothing : Prop :=
  ∀ (s : State) (a : Access) (rest : List Turn) (off : BitVec 12) (size : AccessSize),
    s.rst = false → s.schedule = .host a :: rest → windowOffset s.params a.addr = some off →
    (a = .read a.addr size ∨ ∃ v, a = .write a.addr size v) → (size ≠ .word ∨ off.toNat % 4 ≠ 0) →
    step s = .next { s with schedule := rest, agent := .host, resp := some .busError }

/-- R31, R32: ID stands at 0x000 and reads its constant, CFG at 0x004 and reads the build's parameters, from reset on;
writes to both are ignored; no step changes what either reads. -/
def Obligations.IdentificationIsConstant : Prop :=
  locate 0x000 = .id ∧ locate 0x004 = .cfg ∧
  (∀ s : State, s.readReg .id = 0x4B504331) ∧
  (∀ s : State, (s.readReg .cfg).extractLsb' 0 8 = BitVec.ofNat 8 s.params.mxWords ∧
    (s.readReg .cfg).getLsbD 8 = s.params.hasDec ∧ (s.readReg .cfg).extractLsb' 9 23 = 0) ∧
  (∀ (s : State) (v : Word), writeReg .id v s = .next s ∧ writeReg .cfg v s = .next s) ∧
  (∀ s t : State, step s = .next t → t.readReg .id = s.readReg .id ∧ t.readReg .cfg = s.readReg .cfg)

/-- R33: CTRL stands at 0x008, keeps bit 0 of what is written, reads its other bits as 0, may be written while BUSY = 1,
never raises an error, is 0 at reset, and lets DONE and ERR drive `irq` only when bit 0 is 1. -/
def Obligations.CtrlKeepsIrqEnableOnly : Prop :=
  locate 0x008 = .ctrl ∧
  (∀ (v : Word) (s : State), writeReg .ctrl v s = .next { s with irqEn := v.getLsbD 0 }) ∧
  (∀ s : State, (s.readReg .ctrl).getLsbD 0 = s.irqEn ∧ (s.readReg .ctrl).extractLsb' 1 31 = 0) ∧
  (∀ p : Params, (State.resetWith p).readReg .ctrl = 0) ∧
  (∀ s : State, s.irq = (s.irqEn && (s.done || s.err)))

/-- R34's table: what can set and clear each flag, over every step. BUSY is set only by a write to CMD that leaves its
command pending and DONE 0, and cleared only by the sequencer (whose turn an empty schedule is, log 1) or reset. DONE is
set only by a completion, and cleared only by a STATUS write with bit 1, a command being accepted or reset. KEY_VALID is
set only by a KEYEXP completing, and cleared only by a KEY write while idle, a KEYEXP being accepted, a ZEROIZE
completing or reset. ERR is cleared only by a STATUS write with bit 3 or reset, and ERR_CODE changes only with an error
being recorded, or, to 0, by the same two. -/
def Obligations.FlagsChangeOnlyAsTabled : Prop :=
  ∀ s t : State, step s = .next t →
    (s.busy = false → t.busy = true →
      ∃ v i, HostWrites s 0x010 v ∧ decode v = .command i ∧ i ≠ .nop ∧ t.pending = some i ∧ t.done = false) ∧
    (s.busy = true → t.busy = false →
      s.schedule = [] ∨ (∃ rest, s.schedule = .sequencer :: rest) ∨ ResetsNext s) ∧
    (s.done = false → t.done = true → Completes s t) ∧
    (s.done = true → t.done = false →
      (∃ v, HostWrites s 0x00C v ∧ v.getLsbD 1 = true) ∨ (s.busy = false ∧ t.busy = true) ∨ ResetsNext s) ∧
    (s.keyValid = false → t.keyValid = true → Completes s t ∧ s.pending = some .keyexp) ∧
    (s.keyValid = true → t.keyValid = false →
      (s.busy = false ∧ ∃ (i : Fin 8) (v : Word), HostWrites s (0x040 + 4 * i.val) v) ∨
      (s.busy = false ∧ t.busy = true ∧ t.pending = some .keyexp) ∨
      (Completes s t ∧ s.pending = some .zeroize) ∨ ResetsNext s) ∧
    (s.err = true → t.err = false → (∃ v, HostWrites s 0x00C v ∧ v.getLsbD 3 = true) ∨ ResetsNext s) ∧
    (t.errCode ≠ s.errCode →
      (s.err = false ∧ t.err = true) ∨
      (t.errCode = .none ∧ ((∃ v, HostWrites s 0x00C v ∧ v.getLsbD 3 = true) ∨ ResetsNext s)))

/-- Who may write each register, over every step but a reset: RK only KEYEXP and ZEROIZE; STATE only the commands R42
lists; DOUT only ENC, DEC, ST_STORE and ZEROIZE; RES only MODEXP and ZEROIZE; each at its completion. KEY, DIN, BASE, EXP
and MOD only ZEROIZE's completion, or a host write while BUSY = 0 to one of the register's own elements, one that exists,
which then holds the value written while every other element keeps its own (R37, R40 to R45). -/
def Obligations.EachRegisterHasItsWriters : Prop :=
  ∀ s t : State, step s = .next t → ¬ ResetsNext s →
    (t.rk = s.rk ∨ (Completes s t ∧ (s.pending = some .keyexp ∨ s.pending = some .zeroize))) ∧
    (t.res = s.res ∨ (Completes s t ∧ (s.pending = some .modexp ∨ s.pending = some .zeroize))) ∧
    (t.dout = s.dout ∨ (Completes s t ∧ ∃ i, s.pending = some i ∧ i ∈ [.enc, .dec, .stStore, .zeroize])) ∧
    (t.st = s.st ∨ (Completes s t ∧
      ∃ i, s.pending = some i ∧ i ≠ .nop ∧ i ≠ .keyexp ∧ i ≠ .stStore ∧ i ≠ .modexp)) ∧
    (t.key = s.key ∨ (Completes s t ∧ s.pending = some .zeroize) ∨
      (s.busy = false ∧ ∃ (i : Fin 8) (v : Word), HostWrites s (0x040 + 4 * i.val) v ∧ t.key = s.key.set i v)) ∧
    (t.din = s.din ∨ (Completes s t ∧ s.pending = some .zeroize) ∨
      (s.busy = false ∧ ∃ (i : Fin 4) (v : Word), HostWrites s (0x060 + 4 * i.val) v ∧ t.din = s.din.set i v)) ∧
    (t.base = s.base ∨ (Completes s t ∧ s.pending = some .zeroize) ∨
      (s.busy = false ∧ ∃ (i : Fin 128) (v : Word), i.val < s.params.mxWords ∧
        HostWrites s (0x200 + 4 * i.val) v ∧ t.base = s.base.set i v)) ∧
    (t.exp = s.exp ∨ (Completes s t ∧ s.pending = some .zeroize) ∨
      (s.busy = false ∧ ∃ (i : Fin 128) (v : Word), i.val < s.params.mxWords ∧
        HostWrites s (0x400 + 4 * i.val) v ∧ t.exp = s.exp.set i v)) ∧
    (t.mod = s.mod ∨ (Completes s t ∧ s.pending = some .zeroize) ∨
      (s.busy = false ∧ ∃ (i : Fin 128) (v : Word), i.val < s.params.mxWords ∧
        HostWrites s (0x600 + 4 * i.val) v ∧ t.mod = s.mod.set i v))

/-- An access outside `BASE_ADDR + 0x000 .. 0xFFF` does not reach the block: nothing changes and nothing is answered
(R70; that such an access is a turn at all is log 9's choice). -/
def Obligations.OutsideWindowNothingHappens : Prop :=
  ∀ (s : State) (a : Access) (rest : List Turn), s.schedule = .host a :: rest →
    (a.addr < s.params.baseAddr ∨ s.params.baseAddr + 0xFFF < a.addr) →
    step s = .next { s with schedule := rest }

/-- An idle block holds every register: the sequencer's turn changes nothing while BUSY = 0 (R278, R294; that such a
turn may stand in the schedule is log 6's choice). -/
def Obligations.IdleSequencerHoldsEverything : Prop :=
  ∀ (s : State) (rest : List Turn), s.schedule = .sequencer :: rest → s.busy = false →
    step s = .next { s with schedule := rest }

/-! ## Interrupt and reset -/

/-- R270: `irq = CTRL.IRQ_EN & (STATUS.DONE | STATUS.ERR)`, in terms of what a read of CTRL and STATUS shows. -/
def Obligations.InterruptOutput : Prop :=
  ∀ s : State, s.irq =
    ((s.readReg .ctrl).getLsbD 0 && ((s.readReg .status).getLsbD 1 || (s.readReg .status).getLsbD 3))

/-- R271 over the step relation: with IRQ_EN set, a completion raises `irq`; clearing DONE and ERR together lowers it;
clearing IRQ_EN lowers it at once and leaves DONE and ERR; setting IRQ_EN while one is pending raises it at once. -/
def Obligations.InterruptFollowsItsSources : Prop :=
  (∀ s t : State, s.irqEn = true → step s = .next t → s.busy = true → t.busy = false →
    (∀ b rest, s.schedule ≠ .reset b :: rest) → t.irq = true) ∧
  (∀ s : State, ∃ t, writeReg .status 0x0000000A s = .next t ∧ t.irq = false ∧ t.irqEn = s.irqEn) ∧
  (∀ s : State, ∃ t, writeReg .ctrl 0 s = .next t ∧ t.irq = false ∧ t.done = s.done ∧ t.err = s.err) ∧
  (∀ s : State, s.done = true ∨ s.err = true → ∃ t, writeReg .ctrl 1 s = .next t ∧ t.irq = true)

/-- R48: what every register reads after reset, for every legal build, and that no command is pending and `irq` is 0 (this
last the spec's own inference). The build of `State.reset` is log 3's choice and is not named here. -/
def Obligations.ResetValues : Prop :=
  ∀ p : Params, p.Legal →
    (State.resetWith p).readReg .id = 0x4B504331 ∧
    (State.resetWith p).readReg .cfg = (0#23 ++ BitVec.ofBool p.hasDec ++ BitVec.ofNat 8 p.mxWords : BitVec (23 + 1 + 8)) ∧
    (∀ r : Reg, r ≠ .id → r ≠ .cfg → (State.resetWith p).readReg r = 0) ∧
    (State.resetWith p).busy = false ∧ (State.resetWith p).pending = none ∧ (State.resetWith p).irq = false ∧
    ∃ q : Params, q.Legal ∧ State.reset = State.resetWith q

/-- R291, R290: a reset step replaces the whole state with the reset state of the same build, whatever was in flight,
and does nothing else; while `rst` is asserted a host access to the window is refused. That asserting and releasing `rst`
are each a reset turn is log 7's reading; that the turns still to come and the build stay is log 14's choice. -/
def Obligations.ResetStepReplacesState : Prop :=
  (∀ (s : State) (asserted : Bool) (rest : List Turn), s.schedule = .reset asserted :: rest →
    step s = .next { State.resetWith s.params with rst := asserted, schedule := rest }) ∧
  (∀ (s : State) (a : Access) (rest : List Turn) (off : BitVec 12), s.rst = true → s.schedule = .host a :: rest →
    windowOffset s.params a.addr = some off → step s = .refused .accessDuringReset)

/-! ## Field arithmetic and the tables -/

/-- R131: doubling is a shift reduced by 0x11B, its corner cases, and its linearity (the spec's own inference). -/
def Obligations.DoubleIsReducedShift : Prop :=
  (∀ b : Byte, (double b).toNat = (if 128 ≤ b.toNat then 2 * b.toNat ^^^ 0x11B else 2 * b.toNat)) ∧
  double 0x00 = 0x00 ∧ double 0x7F = 0xFE ∧ double 0x80 = 0x1B ∧ double 0xFF = 0xE5 ∧
  (∀ a b : Byte, double (a ^^^ b) = double a ^^^ double b)

/-- `gmul` is the product of the field (R130, R133): it distributes over XOR on both sides, commutes, and moves past a
doubling; with 1, 2 and 3 it is the identity, `double` and `times3`; and it gives R133's worked values. -/
def Obligations.GmulIsFieldProduct : Prop :=
  (∀ a b c : Byte, gmul (a ^^^ b) c = gmul a c ^^^ gmul b c ∧ gmul c (a ^^^ b) = gmul c a ^^^ gmul c b) ∧
  (∀ a b : Byte, gmul a b = gmul b a ∧ gmul (double a) b = double (gmul a b)) ∧
  (∀ a : Byte, gmul a 1 = a ∧ gmul a 2 = double a ∧ gmul a 3 = times3 a) ∧
  gmul 0x57 0x83 = 0xC1 ∧ gmul 0x57 0x13 = 0xFE

/-- R135: the S-box is the field inverse (0 for 0) followed by the affine map: every nonzero byte has exactly one
inverse, and the table the model reads agrees with the definition at every byte. -/
def Obligations.SboxIsInverseThenAffine : Prop :=
  ∀ a : Byte, ∃ x : Byte, (a = 0 → x = 0) ∧ (a ≠ 0 → ∀ y : Byte, gmul a y = 1 ↔ y = x) ∧
    sbox a = x ^^^ x.rotateLeft 1 ^^^ x.rotateLeft 2 ^^^ x.rotateLeft 3 ^^^ x.rotateLeft 4 ^^^ 0x63

/-- R137: the inverse S-box is the inverse permutation, on both sides; with R136's checks that the S-box has no fixed
point and no opposite fixed point (the spec's own evaluation). -/
def Obligations.InvSboxIsInverse : Prop :=
  (∀ a : Byte, invSbox (sbox a) = a ∧ sbox (invSbox a) = a) ∧
  (∀ a : Byte, sbox a ≠ a ∧ sbox a ≠ a ^^^ 0xFF) ∧
  invSbox 0x63 = 0x00 ∧ invSbox 0xED = 0x53 ∧ invSbox 0x00 = 0x52 ∧ invSbox 0x16 = 0xFF

/-- R138: the round constants start at 0x01 and double; their first sixteen values; and they have period 51. -/
def Obligations.RoundConstantsDouble : Prop :=
  rc 0 = 0x01 ∧ (∀ k, rc (k + 1) = double (rc k)) ∧
  (List.range 16).map rc =
    [0x01, 0x02, 0x04, 0x08, 0x10, 0x20, 0x40, 0x80, 0x1b, 0x36, 0x6c, 0xd8, 0xab, 0x4d, 0x9a, 0x2f] ∧
  (∀ k, rc (k + 51) = rc k) ∧ (∀ d, 0 < d → d < 51 → rc d ≠ rc 0) ∧ rc 50 = 0x8D

/-- R160 and R161: the two word functions, byte by byte, and their examples (R160 is the spec's own inference from R10). -/
def Obligations.WordFunctions : Prop :=
  (∀ b0 b1 b2 b3 : Byte, rotWord (word b0 b1 b2 b3) = word b1 b2 b3 b0) ∧
  (∀ b0 b1 b2 b3 : Byte, subWord (word b0 b1 b2 b3) = word (sbox b0) (sbox b1) (sbox b2) (sbox b3)) ∧
  (∀ w : Word, w = word (byteOf 0 w) (byteOf 1 w) (byteOf 2 w) (byteOf 3 w)) ∧
  rotWord 0x0914DFF4 = 0x14DFF409 ∧ subWord 0x14DFF409 = 0xFA9EBF01

/-- R162 to R165: the schedule starts with the key; every later word is the word eight before it XORed with the term its
index class gives, word `8k` using the round constant `RC[k-1]`. -/
def Obligations.ScheduleRecurrence : Prop :=
  ∀ K : Vector Word 8,
    (∀ i : Fin 8, (expand K)[i.val]'(by omega) = K[i]) ∧
    (∀ (i : Nat) (_ : 8 ≤ i) (h : i < 60),
      (expand K)[i] = (expand K)[i - 8]'(by omega) ^^^
        (if i % 8 = 0 then subWord (rotWord ((expand K)[i - 1]'(by omega))) ^^^ word (rc (i / 8 - 1)) 0 0 0
         else if i % 8 = 4 then subWord ((expand K)[i - 1]'(by omega))
         else (expand K)[i - 1]'(by omega)))

/-! ## The cipher -/

/-- Each inverse round function undoes its round function and the other way round (R184, R185, R187; for MixColumns
R185's normative equation). -/
def Obligations.RoundFunctionsInvert : Prop :=
  ∀ S : Columns,
    invSubBytes (subBytes S) = S ∧ subBytes (invSubBytes S) = S ∧
    invShiftRows (shiftRows S) = S ∧ shiftRows (invShiftRows S) = S ∧
    invMixColumns (mixColumns S) = S ∧ mixColumns (invMixColumns S) = S

/-- R187: the inverse cipher undoes the cipher under the same schedule, and the other way round, for every block and
every 60-word schedule; and it is the sequence of steps R187 writes out, its byte substitution INV_SBOX on every byte. The two equations are the spec's own inference from R180 to
R186. -/
def Obligations.InvCipherUndoesCipher : Prop :=
  (∀ (X : Columns) (W : Vector Word 60), invCipher (cipher X W) W = X ∧ cipher (invCipher X W) W = X) ∧
  (∀ (X : Columns) (W : Vector Word 60), invCipher X W =
    let S := addRoundKey X W 14
    let S := invSubBytes (invShiftRows S)
    let S := (List.range' 1 13).reverse.foldl
      (fun S n => invSubBytes (invShiftRows (invMixColumns (addRoundKey S W n)))) S
    addRoundKey S W 0) ∧
  (∀ (S : Columns) (r c : Fin 4), byteAt (invSubBytes S) r c = invSbox (byteAt S r c))

/-- R189: on a block with the inverse, KEYEXP, then ENC on block `X`, then a copy of DOUT into DIN, then DEC, leaves
DOUT equal to `X`, whatever the key (the spec's own inference from R186 to R188). -/
def Obligations.BlockRoundTrip : Prop :=
  ∀ s : State, Idle s → s.params.hasDec = true →
    ∃ s1 s2 : State,
      Host.Core.run core 4 { s with schedule := commandTurns s.params [.keyexp, .enc] } = .next s1 ∧
      Host.Core.run core 6 { s1 with schedule := dinWrites s.params s1.dout ++ commandTurns s.params [.dec] } =
        .next s2 ∧
      s1.din = s.din ∧ s2.din = s1.dout ∧ s2.dout = s.din

/-- R210: with a valid key and no host write in between, the step commands in the order of the cipher leave STATE and
DOUT equal to what ENC leaves, and in the order of the inverse cipher to what DEC leaves; nothing else of the block
differs from what ENC or DEC leaves (the spec's own inference from R201 to R206 and R186). -/
def Obligations.StepCommandsEqualWholeCipher : Prop :=
  (∀ s : State, Idle s → s.keyValid = true →
    ∃ t : State,
      Host.Core.run core 2 { s with schedule := commandTurns s.params [.enc] } = .next t ∧
      Host.Core.run core (2 * encSteps.length) { s with schedule := commandTurns s.params encSteps } = .next t ∧
      t.st = cipher s.din s.rk ∧ t.dout = cipher s.din s.rk) ∧
  (∀ s : State, Idle s → s.keyValid = true → s.params.hasDec = true →
    ∃ t : State,
      Host.Core.run core 2 { s with schedule := commandTurns s.params [.dec] } = .next t ∧
      Host.Core.run core (2 * decSteps.length) { s with schedule := commandTurns s.params decSteps } = .next t ∧
      t.st = invCipher s.din s.rk ∧ t.dout = invCipher s.din s.rk)

/-! ## The commands, one by one -/

/-- R250: NOP passes the issue checks, is never accepted and changes nothing; while BUSY = 1 it records E_BUSY; from
reset it leaves STATUS 0. -/
def Obligations.NopCommand : Prop :=
  IssuedAs .nop 0x00000000 ∧ (∀ s : State, s.agent = .host → s.busy = false → exec .nop s = .next s) ∧
  (∀ p : Params, ∃ t, issueWord 0x00000000 (State.resetWith p) = .next t ∧ t.readReg .status = 0x00000000)

/-- R166: KEYEXP is accepted with KEY_VALID cleared, whatever the key; it completes with RK the schedule of KEY and
KEY_VALID set, and changes nothing else. Doing it again with KEY unchanged leaves RK as it is. -/
def Obligations.KeyexpCommand : Prop :=
  IssuedAs .keyexp 0x00000001 ∧
  (∀ s : State, s.agent = .host → s.busy = false →
    exec .keyexp s = .next { accepted .keyexp s with keyValid := false }) ∧
  (∀ s : State, s.agent = .sequencer →
    exec .keyexp s = .next (completed { s with rk := expand s.key, keyValid := true })) ∧
  (∀ s t : State, s.agent = .sequencer → exec .keyexp s = .next t →
    exec .keyexp { t with agent := .sequencer } = .next t) ∧
  (∀ s : State, s.agent = .sequencer →
    s.key = #v[0x603deb10, 0x15ca71be, 0x2b73aef0, 0x857d7781, 0x1f352c07, 0x3b6108d7, 0x2d9810a3, 0x0914dff4] →
    ∃ t, exec .keyexp s = .next t ∧ t.rk[8] = 0x9BA35411 ∧ t.rk[59] = 0x706C631E)

/-- ENC (R186): accepted when the key is valid, E_NOKEY when it is not; it completes with STATE and DOUT the cipher of
DIN under RK and changes nothing else, so a second ENC leaves the same state. The cipher is the sequence of rounds R186
writes out, and gives its example. -/
def Obligations.EncCommand : Prop :=
  IssuedAs .enc 0x00000002 ∧
  (∀ s : State, s.agent = .host → s.busy = false → s.keyValid = true → exec .enc s = .next (accepted .enc s)) ∧
  (∀ s : State, s.agent = .host → s.busy = false → s.keyValid = false → exec .enc s = .next (recorded .noKey s)) ∧
  (∀ s : State, s.agent = .sequencer →
    exec .enc s = .next (completed { s with st := cipher s.din s.rk, dout := cipher s.din s.rk })) ∧
  (∀ s t : State, s.agent = .sequencer → exec .enc s = .next t → exec .enc { t with agent := .sequencer } = .next t) ∧
  (∀ (X : Columns) (W : Vector Word 60), cipher X W =
    let S := addRoundKey X W 0
    let S := (List.range' 1 13).foldl (fun S n => addRoundKey (mixColumns (shiftRows (subBytes S))) W n) S
    addRoundKey (shiftRows (subBytes S)) W 14) ∧
  cipher #v[0x00112233, 0x44556677, 0x8899aabb, 0xccddeeff]
    (expand #v[0x00010203, 0x04050607, 0x08090a0b, 0x0c0d0e0f, 0x10111213, 0x14151617, 0x18191a1b, 0x1c1d1e1f]) =
    #v[0x8ea2b7ca, 0x516745bf, 0xeafc4990, 0x4b496089]

/-- R188: DEC is accepted when the build has the inverse and the key is valid, E_UNSUPPORTED without the inverse,
E_NOKEY without the key; it completes with STATE and DOUT the inverse cipher of DIN under RK and changes nothing
else. -/
def Obligations.DecCommand : Prop :=
  IssuedAs .dec 0x00000003 ∧
  (∀ s : State, s.agent = .host → s.busy = false → s.params.hasDec = true → s.keyValid = true →
    exec .dec s = .next (accepted .dec s)) ∧
  (∀ s : State, s.agent = .host → s.busy = false → s.params.hasDec = false →
    exec .dec s = .next (recorded .unsupported s)) ∧
  (∀ s : State, s.agent = .host → s.busy = false → s.params.hasDec = true → s.keyValid = false →
    exec .dec s = .next (recorded .noKey s)) ∧
  (∀ s : State, s.agent = .sequencer →
    exec .dec s = .next (completed { s with st := invCipher s.din s.rk, dout := invCipher s.din s.rk })) ∧
  invCipher #v[0x8ea2b7ca, 0x516745bf, 0xeafc4990, 0x4b496089]
    (expand #v[0x00010203, 0x04050607, 0x08090a0b, 0x0c0d0e0f, 0x10111213, 0x14151617, 0x18191a1b, 0x1c1d1e1f]) =
    #v[0x00112233, 0x44556677, 0x8899aabb, 0xccddeeff]

/-- R252: ZEROIZE is always accepted when idle; it completes with every key, data, operand and result register 0 and
KEY_VALID 0, leaving CTRL and the error record. Where the elements that do not exist hold 0 already, as they always do
(the invariant), the state then equals the reset state except CTRL, DONE, ERR and ERR_CODE and what is not the
block's. In the state it leaves, STATUS shows DONE and the error record only, ENC, DEC and ADD_RK raise E_NOKEY and
MODEXP E_MOD_ZERO. That the elements that do not exist are held, and held as they are, is log 13's choice. -/
def Obligations.ZeroizeCommand : Prop :=
  IssuedAs .zeroize 0x00000004 ∧
  (∀ s : State, s.agent = .host → s.busy = false → exec .zeroize s = .next (accepted .zeroize s)) ∧
  (∀ s : State, s.agent = .sequencer →
    ∃ B E M R : Vector Word 128,
      exec .zeroize s = .next (completed { s with
        key := Vector.replicate 8 0, din := Vector.replicate 4 0, dout := Vector.replicate 4 0,
        st := Vector.replicate 4 0, rk := Vector.replicate 60 0, keyValid := false,
        base := B, exp := E, mod := M, res := R }) ∧
      ∀ i : Fin 128,
        (i.val < s.params.mxWords → B[i] = 0 ∧ E[i] = 0 ∧ M[i] = 0 ∧ R[i] = 0) ∧
        (s.params.mxWords ≤ i.val → B[i] = s.base[i] ∧ E[i] = s.exp[i] ∧ M[i] = s.mod[i] ∧ R[i] = s.res[i])) ∧
  (∀ s : State, s.agent = .sequencer →
    (∀ i : Fin 128, s.params.mxWords ≤ i.val → s.base[i] = 0 ∧ s.exp[i] = 0 ∧ s.mod[i] = 0 ∧ s.res[i] = 0) →
    exec .zeroize s = .next { State.resetWith s.params with
      irqEn := s.irqEn, done := true, err := s.err, errCode := s.errCode,
      rst := s.rst, schedule := s.schedule, resp := s.resp }) ∧
  (∀ s t : State, s.agent = .sequencer → exec .zeroize s = .next t →
    (s.err = false → s.errCode = .none → t.readReg .status = 0x00000002) ∧
    exec .enc t = .next (recorded .noKey t) ∧
    (t.params.hasDec = true → exec .dec t = .next (recorded .noKey t)) ∧
    (∀ n : Byte, n.toNat ≤ 14 → exec (.addRk n) t = .next (recorded .noKey t)) ∧
    (t.params.Legal → exec .modexp t = .next (recorded .modZero t)))

/-- R201: ST_LOAD needs no key; it completes with STATE the block in DIN and changes nothing else. -/
def Obligations.StLoadCommand : Prop :=
  IssuedAs .stLoad 0x00000010 ∧
  (∀ s : State, s.agent = .host → s.busy = false → exec .stLoad s = .next (accepted .stLoad s)) ∧
  (∀ s : State, s.agent = .sequencer → exec .stLoad s = .next (completed { s with st := s.din }))

/-- R202, R181: SUB_BYTES needs no key; it completes with every byte of STATE replaced by its S-box value and changes
nothing else; its example and the all-zero state. -/
def Obligations.SubBytesCommand : Prop :=
  IssuedAs .subBytes 0x00000011 ∧
  (∀ s : State, s.agent = .host → s.busy = false → exec .subBytes s = .next (accepted .subBytes s)) ∧
  (∀ s : State, s.agent = .sequencer →
    ∃ S : Columns, exec .subBytes s = .next (completed { s with st := S }) ∧
      (∀ r c : Fin 4, byteAt S r c = sbox (byteAt s.st r c)) ∧
      (∀ c : Fin 4, S[c] = subWord s.st[c]) ∧
      (s.st = #v[0, 0, 0, 0] → S = #v[0x63636363, 0x63636363, 0x63636363, 0x63636363]) ∧
      (s.st = #v[0x00112233, 0x44556677, 0x8899aabb, 0xccddeeff] →
        S = #v[0x638293c3, 0x1bfc33f5, 0xc4eeacea, 0x4bc12816]))

/-- R203, R182: SHIFT_ROWS needs no key; it completes with row `r` of STATE rotated left by `r` and changes nothing
else; four equal columns are unchanged, four of them give the state back (the spec's own inference), and its example. -/
def Obligations.ShiftRowsCommand : Prop :=
  IssuedAs .shiftRows 0x00000012 ∧
  (∀ s : State, s.agent = .host → s.busy = false → exec .shiftRows s = .next (accepted .shiftRows s)) ∧
  (∀ s : State, s.agent = .sequencer → exec .shiftRows s = .next (completed { s with st := shiftRows s.st })) ∧
  (∀ (S : Columns) (r c : Fin 4), byteAt (shiftRows S) r c = byteAt S r (c + r)) ∧
  (∀ (S : Columns) (c : Fin 4),
    (shiftRows S)[c] = word (byteOf 0 S[c]) (byteOf 1 S[c + 1]) (byteOf 2 S[c + 2]) (byteOf 3 S[c + 3])) ∧
  (∀ w : Word, shiftRows #v[w, w, w, w] = #v[w, w, w, w]) ∧
  (∀ S : Columns, shiftRows (shiftRows (shiftRows (shiftRows S))) = S) ∧
  shiftRows #v[0x00112233, 0x44556677, 0x8899aabb, 0xccddeeff] = #v[0x0055aaff, 0x4499ee33, 0x88dd2277, 0xcc1166bb]

/-- R204, R183: MIX_COLUMNS needs no key; it completes with each column of STATE multiplied by `circ(2, 3, 1, 1)` and
changes nothing else; four equal bytes are unchanged, so a zero state stays zero, and its example. -/
def Obligations.MixColumnsCommand : Prop :=
  IssuedAs .mixColumns 0x00000013 ∧
  (∀ s : State, s.agent = .host → s.busy = false → exec .mixColumns s = .next (accepted .mixColumns s)) ∧
  (∀ s : State, s.agent = .sequencer → exec .mixColumns s = .next (completed { s with st := mixColumns s.st })) ∧
  (∀ (S : Columns) (c : Fin 4),
    let a0 := byteAt S 0 c
    let a1 := byteAt S 1 c
    let a2 := byteAt S 2 c
    let a3 := byteAt S 3 c
    byteAt (mixColumns S) 0 c = double a0 ^^^ times3 a1 ^^^ a2 ^^^ a3 ∧
    byteAt (mixColumns S) 1 c = a0 ^^^ double a1 ^^^ times3 a2 ^^^ a3 ∧
    byteAt (mixColumns S) 2 c = a0 ^^^ a1 ^^^ double a2 ^^^ times3 a3 ∧
    byteAt (mixColumns S) 3 c = times3 a0 ^^^ a1 ^^^ a2 ^^^ double a3) ∧
  (∀ (S : Columns) (c : Fin 4) (x : Byte), S[c] = word x x x x → (mixColumns S)[c] = word x x x x) ∧
  mixColumns #v[0, 0, 0, 0] = #v[0, 0, 0, 0] ∧
  mixColumns #v[0xdb135345, 0xf20a225c, 0x01010101, 0xc6c6c6c6] = #v[0x8e4da1bc, 0x9fdc589d, 0x01010101, 0xc6c6c6c6]

/-- R205, R180: ADD_RK with a legal index is accepted when the key is valid, E_NOKEY when it is not, and completes with
round key `n` XORed into STATE, changing nothing else. An index above 14 is illegal whatever KEY_VALID is. The same
index twice gives the state back; indices 0 and 1 XOR in the two halves of the key; its example. -/
def Obligations.AddRkCommand : Prop :=
  (∀ n : Byte, n.toNat ≤ 14 →
    encode (.addRk n) = BitVec.ofNat 32 (0x14 + 0x100 * n.toNat) ∧
    decode (BitVec.ofNat 32 (0x14 + 0x100 * n.toNat)) = .command (.addRk n)) ∧
  (∀ (v : Word) (s : State), s.agent = .host → s.busy = false → v.extractLsb' 0 8 = 0x14 →
    (v.extractLsb' 16 16 ≠ 0 ∨ 14 < (v.extractLsb' 8 8).toNat) → issueWord v s = .next (recorded .illegal s)) ∧
  (∀ (n : Byte) (s : State), s.agent = .host → s.busy = true → exec (.addRk n) s = .next (recorded .busy s)) ∧
  (∀ (n : Byte) (s : State), n.toNat ≤ 14 → s.agent = .host → s.busy = false → s.keyValid = true →
    exec (.addRk n) s = .next (accepted (.addRk n) s)) ∧
  (∀ (n : Byte) (s : State), n.toNat ≤ 14 → s.agent = .host → s.busy = false → s.keyValid = false →
    exec (.addRk n) s = .next (recorded .noKey s)) ∧
  (∀ (n : Byte) (s : State) (h : n.toNat ≤ 14), s.agent = .sequencer →
    ∃ S : Columns, exec (.addRk n) s = .next (completed { s with st := S }) ∧
      ∀ c : Fin 4, S[c] = s.st[c] ^^^ s.rk[4 * n.toNat + c.val]'(by omega)) ∧
  (∀ (S : Columns) (W : Vector Word 60) (n : Nat), n ≤ 14 → addRoundKey (addRoundKey S W n) W n = S) ∧
  (∀ (S : Columns) (K : Vector Word 8) (c : Fin 4),
    (addRoundKey S (expand K) 0)[c] = S[c] ^^^ K[c.val]'(by omega) ∧
    (addRoundKey S (expand K) 1)[c] = S[c] ^^^ K[4 + c.val]'(by omega)) ∧
  addRoundKey #v[0x00112233, 0x44556677, 0x8899aabb, 0xccddeeff]
    (expand #v[0x00010203, 0x04050607, 0x08090a0b, 0x0c0d0e0f, 0x10111213, 0x14151617, 0x18191a1b, 0x1c1d1e1f]) 0 =
    #v[0x00102030, 0x40506070, 0x8090a0b0, 0xc0d0e0f0]

/-- R206: ST_STORE needs no key; it completes with DOUT the contents of STATE and changes nothing else. -/
def Obligations.StStoreCommand : Prop :=
  IssuedAs .stStore 0x00000015 ∧
  (∀ s : State, s.agent = .host → s.busy = false → exec .stStore s = .next (accepted .stStore s)) ∧
  (∀ s : State, s.agent = .sequencer → exec .stStore s = .next (completed { s with dout := s.st }))

/-- R207: INV_SUB_BYTES is E_UNSUPPORTED without the inverse; with it, it completes with every byte of STATE replaced by
its inverse S-box value and changes nothing else; it undoes SUB_BYTES; the all-zero state and its example. -/
def Obligations.InvSubBytesCommand : Prop :=
  IssuedAs .invSubBytes 0x00000019 ∧
  (∀ s : State, s.agent = .host → s.busy = false → s.params.hasDec = true →
    exec .invSubBytes s = .next (accepted .invSubBytes s)) ∧
  (∀ s : State, s.agent = .host → s.busy = false → s.params.hasDec = false →
    exec .invSubBytes s = .next (recorded .unsupported s)) ∧
  (∀ s : State, s.agent = .sequencer →
    ∃ S : Columns, exec .invSubBytes s = .next (completed { s with st := S }) ∧
      (∀ r c : Fin 4, byteAt S r c = invSbox (byteAt s.st r c)) ∧
      (∀ T : Columns, s.st = subBytes T → S = T) ∧
      (s.st = #v[0, 0, 0, 0] → S = #v[0x52525252, 0x52525252, 0x52525252, 0x52525252]) ∧
      (s.st = #v[0x638293c3, 0x1bfc33f5, 0xc4eeacea, 0x4bc12816] →
        S = #v[0x00112233, 0x44556677, 0x8899aabb, 0xccddeeff]))

/-- R208, R184: INV_SHIFT_ROWS is E_UNSUPPORTED without the inverse; with it, it completes with row `r` of STATE rotated
right by `r` and changes nothing else; it undoes SHIFT_ROWS and equals three of them (the spec's own inference); its
example. -/
def Obligations.InvShiftRowsCommand : Prop :=
  IssuedAs .invShiftRows 0x0000001A ∧
  (∀ s : State, s.agent = .host → s.busy = false → s.params.hasDec = true →
    exec .invShiftRows s = .next (accepted .invShiftRows s)) ∧
  (∀ s : State, s.agent = .host → s.busy = false → s.params.hasDec = false →
    exec .invShiftRows s = .next (recorded .unsupported s)) ∧
  (∀ s : State, s.agent = .sequencer →
    exec .invShiftRows s = .next (completed { s with st := invShiftRows s.st })) ∧
  (∀ (S : Columns) (r c : Fin 4), byteAt (invShiftRows S) r c = byteAt S r (c - r)) ∧
  (∀ S : Columns, invShiftRows (shiftRows S) = S ∧ invShiftRows S = shiftRows (shiftRows (shiftRows S))) ∧
  invShiftRows #v[0x00112233, 0x44556677, 0x8899aabb, 0xccddeeff] =
    #v[0x00ddaa77, 0x4411eebb, 0x885522ff, 0xcc996633]

/-- R209, R185: INV_MIX_COLUMNS is E_UNSUPPORTED without the inverse; with it, it completes with each column of STATE
multiplied by `circ(0E, 0B, 0D, 09)` and changes nothing else; it undoes MIX_COLUMNS, leaves four equal bytes, and its
example. -/
def Obligations.InvMixColumnsCommand : Prop :=
  IssuedAs .invMixColumns 0x0000001B ∧
  (∀ s : State, s.agent = .host → s.busy = false → s.params.hasDec = true →
    exec .invMixColumns s = .next (accepted .invMixColumns s)) ∧
  (∀ s : State, s.agent = .host → s.busy = false → s.params.hasDec = false →
    exec .invMixColumns s = .next (recorded .unsupported s)) ∧
  (∀ s : State, s.agent = .sequencer →
    exec .invMixColumns s = .next (completed { s with st := invMixColumns s.st })) ∧
  (∀ (S : Columns) (c : Fin 4),
    let a0 := byteAt S 0 c
    let a1 := byteAt S 1 c
    let a2 := byteAt S 2 c
    let a3 := byteAt S 3 c
    byteAt (invMixColumns S) 0 c = gmul 0x0E a0 ^^^ gmul 0x0B a1 ^^^ gmul 0x0D a2 ^^^ gmul 0x09 a3 ∧
    byteAt (invMixColumns S) 1 c = gmul 0x09 a0 ^^^ gmul 0x0E a1 ^^^ gmul 0x0B a2 ^^^ gmul 0x0D a3 ∧
    byteAt (invMixColumns S) 2 c = gmul 0x0D a0 ^^^ gmul 0x09 a1 ^^^ gmul 0x0E a2 ^^^ gmul 0x0B a3 ∧
    byteAt (invMixColumns S) 3 c = gmul 0x0B a0 ^^^ gmul 0x0D a1 ^^^ gmul 0x09 a2 ^^^ gmul 0x0E a3) ∧
  (∀ S : Columns, invMixColumns (mixColumns S) = S) ∧
  (∀ (S : Columns) (c : Fin 4) (x : Byte), S[c] = word x x x x → (invMixColumns S)[c] = word x x x x) ∧
  invMixColumns #v[0x8e4da1bc, 0x9fdc589d, 0x01010101, 0xc6c6c6c6] = #v[0xdb135345, 0xf20a225c, 0x01010101, 0xc6c6c6c6]

/-- R232, R233: MODEXP is accepted when `Int(MOD) ≠ 0`, E_MOD_ZERO when it is 0; it completes with `Int(RES)` exactly
`Int(BASE)^Int(EXP) mod Int(MOD)`, below the modulus and with no bit lost (R233, the spec's own inference), and changes
nothing else, the elements of RES that do not exist included (that these are held at all is log 13's choice); its
example. -/
def Obligations.ModexpCommand : Prop :=
  IssuedAs .modexp 0x00000020 ∧
  (∀ s : State, s.agent = .host → s.busy = false → intOf s.mod s.params.mxWords ≠ 0 →
    exec .modexp s = .next (accepted .modexp s)) ∧
  (∀ s : State, s.agent = .host → s.busy = false → intOf s.mod s.params.mxWords = 0 →
    exec .modexp s = .next (recorded .modZero s)) ∧
  (∀ s : State, s.agent = .sequencer → s.params.Legal → intOf s.mod s.params.mxWords ≠ 0 →
    ∃ R : Vector Word 128, exec .modexp s = .next (completed { s with res := R }) ∧
      intOf R s.params.mxWords =
        intOf s.base s.params.mxWords ^ intOf s.exp s.params.mxWords % intOf s.mod s.params.mxWords ∧
      intOf R s.params.mxWords < intOf s.mod s.params.mxWords ∧
      intOf s.mod s.params.mxWords ≤ 2 ^ (32 * s.params.mxWords) - 1 ∧
      (∀ i : Fin 128, s.params.mxWords ≤ i.val → R[i] = s.res[i]) ∧
      (intOf s.base s.params.mxWords = 2 → intOf s.exp s.params.mxWords = 6 → intOf s.mod s.params.mxWords = 23 →
        R[0] = 18))

/-! ## Modular exponentiation -/

/-- R231: the square-and-multiply loop gives exactly `b^e mod m`, for every base, every exponent of at most `bits` bits
and every modulus `m ≥ 1`. -/
def Obligations.PowModIsExactPower : Prop :=
  ∀ bits b e m : Nat, 1 ≤ m → e < 2 ^ bits → powMod bits b e m = b ^ e % m

/-- R234: the corner cases of MODEXP, on exponents of at most `bits` bits, and the refusal of a zero modulus with RES
unchanged. -/
def Obligations.PowModCornerCases : Prop :=
  (∀ s : State, s.agent = .host → s.busy = false → intOf s.mod s.params.mxWords = 0 →
    exec .modexp s = .next (recorded .modZero s)) ∧
  (∀ bits b e, e < 2 ^ bits → powMod bits b e 1 = 0) ∧
  (∀ bits b m, 2 ≤ m → powMod bits b 0 m = 1) ∧
  (∀ bits e m, 1 ≤ m → 1 ≤ e → e < 2 ^ bits → powMod bits 0 e m = 0) ∧
  (∀ bits e m, 1 ≤ m → e < 2 ^ bits → powMod bits 1 e m = 1 % m) ∧
  (∀ bits b e m, 1 ≤ m → e < 2 ^ bits → powMod bits b e m = (b % m) ^ e % m) ∧
  (∀ bits b e m, 1 ≤ m → 1 ≤ e → e < 2 ^ bits → b % m = 0 → powMod bits b e m = 0) ∧
  (∀ n, 1 ≤ n → powMod (32 * n) (2 ^ (32 * n) - 1) (2 ^ (32 * n) - 1) (2 ^ (32 * n) - 1) = 0) ∧
  powMod 32 20 3 13 = 5

/-- R236: key agreement is symmetric on the block: with one modulus and one generator, the second exponentiation of
each side, on the other side's first result, leaves the same RES in every element that exists (the spec's own inference
from R231), that of `g^(ab) mod p`. -/
def Obligations.KeyAgreementIsSymmetric : Prop :=
  ∀ s1 s2 s3 s4 t1 t2 t3 t4 : State,
    exec .modexp s1 = .next t1 → exec .modexp s2 = .next t2 →
    exec .modexp s3 = .next t3 → exec .modexp s4 = .next t4 →
    s1.agent = .sequencer → s2.agent = .sequencer → s3.agent = .sequencer → s4.agent = .sequencer →
    s1.params.Legal → s2.params = s1.params → s3.params = s1.params → s4.params = s1.params →
    s1.modInt ≠ 0 → s2.modInt = s1.modInt → s3.modInt = s1.modInt → s4.modInt = s1.modInt →
    s2.baseInt = s1.baseInt →
    s3.baseInt = intOf t1.res s1.params.mxWords → s3.expInt = s2.expInt →
    s4.baseInt = intOf t2.res s1.params.mxWords → s4.expInt = s1.expInt →
    (∀ i : Fin 128, i.val < s1.params.mxWords → t3.res[i] = t4.res[i]) ∧
    intOf t3.res s1.params.mxWords = s1.baseInt ^ (s1.expInt * s2.expInt) % s1.modInt ∧
    intOf t4.res s1.params.mxWords = s1.baseInt ^ (s1.expInt * s2.expInt) % s1.modInt

/-! ## The whole machine -/

/-- R49: what a completion may write, command by command: no command writes CTRL, ERR or ERR_CODE, and every register
outside a command's row is unchanged. -/
def Obligations.CompletionWriteSets : Prop :=
  ∀ (i : Instr) (s : State), s.agent = .sequencer → i ≠ .nop →
    ∃ t : State, exec i s = .next t ∧
      t.busy = false ∧ t.pending = none ∧ t.done = true ∧
      t.params = s.params ∧ t.irqEn = s.irqEn ∧ t.err = s.err ∧ t.errCode = s.errCode ∧ t.rst = s.rst ∧
      t.schedule = s.schedule ∧ t.resp = s.resp ∧
      (i ≠ .keyexp → i ≠ .zeroize → t.rk = s.rk ∧ t.keyValid = s.keyValid) ∧
      (i ≠ .modexp → i ≠ .zeroize → t.res = s.res) ∧
      (i ≠ .zeroize → t.key = s.key ∧ t.din = s.din ∧ t.base = s.base ∧ t.exp = s.exp ∧ t.mod = s.mod) ∧
      (i ∈ [.keyexp, .stStore, .modexp] → t.st = s.st) ∧
      (i ≠ .enc → i ≠ .dec → i ≠ .stStore → i ≠ .zeroize → t.dout = s.dout) ∧
      (i = .enc ∨ i = .dec → t.st = t.dout)

/-- The invariant holds in the reset state of every legal build (R48). Its clause on the elements that do not exist is
log 13's choice. -/
def Obligations.ResetMeetsInvariant : Prop :=
  (∀ p : Params, p.Legal → Invariant (State.resetWith p)) ∧ Invariant State.reset

/-- Every step keeps the invariant (R34, R36, R38, R44, R290, R300): from any state that meets it, not only from
reset. Its clause on the elements that do not exist is log 13's choice. -/
def Obligations.StepKeepsInvariant : Prop := ∀ s t : State, Invariant s → step s = .next t → Invariant t

/-- From any state that meets the invariant, no run faults, and a step is refused only for a host access while `rst` is
asserted (R291): every command, illegal word and illegal access goes on. -/
def Obligations.InvariantMeansSafe : Prop :=
  ∀ s : State, Invariant s → SafeRun s ∧
    ∀ r, step s = .refused r → r = .accessDuringReset ∧ s.rst = true ∧ ∃ a rest, s.schedule = .host a :: rest

/-- R300: while a command stays in flight no step changes an operand, so what it reads at completion is what stood there
when it was accepted; nor does any result register change before completion (R36, R301). -/
def Obligations.OperandsStableInFlight : Prop :=
  ∀ s t : State, s.busy = true → step s = .next t → t.busy = true →
    t.pending = s.pending ∧ t.key = s.key ∧ t.din = s.din ∧ t.base = s.base ∧ t.exp = s.exp ∧ t.mod = s.mod ∧
    t.dout = s.dout ∧ t.st = s.st ∧ t.rk = s.rk ∧ t.res = s.res ∧ t.keyValid = s.keyValid

/-- Every accepted command completes (R298, R304): with a command in flight and no reset to come, the block is idle with
DONE set after at most one step more than there are turns scheduled; that the sequencer has the turn when none is left is
log 1's choice, in place of R298's fairness. And a WAIT ends (R108, R304): the host's draw at a WAIT reads STATUS and
changes nothing else, the WAIT being over exactly when that read shows BUSY = 0, so at the first read on an idle block;
and with a command in flight, however many reads come before the completion, the read after it ends the WAIT. -/
def Obligations.AcceptedCommandCompletes : Prop :=
  (∀ s : State, Invariant s → s.busy = true → s.rst = false → (∀ b, Turn.reset b ∉ s.schedule) →
    ∃ n t, n ≤ s.schedule.length + 1 ∧ Host.Core.run core n s = .next t ∧ t.busy = false ∧ t.done = true) ∧
  (∀ (r : HostRun) (rest : List HostOp), r.todo = .waitIdle :: rest → r.block.rst = false →
    r.draw .host = .next
      { r with
        block := { r.block with agent := .host, resp := some (.data (r.block.readReg .status)) }
        todo := if (r.block.readReg .status).getLsbD 0 = true then .waitIdle :: rest else rest }) ∧
  (∀ (r : HostRun) (rest : List HostOp) (n : Nat), r.todo = .waitIdle :: rest → Invariant r.block →
    r.block.busy = true → r.block.rst = false →
    ∃ r', r.run (List.replicate n .host ++ [.sequencer, .host]) = .next r' ∧
      r'.todo = rest ∧ r'.block.busy = false ∧ r'.block.done = true)
end

