-- ==== Sys2Proof/Laws/State.lean ====
section
/-! SUPPORT. One lemma per field per update of State, each true by rfl, so that no proof unfolds a record update. -/

namespace Sys2Proof.Machine.State

open Sys2Proof

/-! ### `accept` -/

section

variable (s : State) (i : Instr)

@[simp] theorem accept_params : (s.accept i).params = s.params := rfl
@[simp] theorem accept_irqEn : (s.accept i).irqEn = s.irqEn := rfl
@[simp] theorem accept_busy : (s.accept i).busy = true := rfl
@[simp] theorem accept_done : (s.accept i).done = false := rfl
@[simp] theorem accept_keyValid : (s.accept i).keyValid = if i = .keyexp then false else s.keyValid := rfl
@[simp] theorem accept_err : (s.accept i).err = s.err := rfl
@[simp] theorem accept_errCode : (s.accept i).errCode = s.errCode := rfl
@[simp] theorem accept_pending : (s.accept i).pending = some i := rfl
@[simp] theorem accept_key : (s.accept i).key = s.key := rfl
@[simp] theorem accept_din : (s.accept i).din = s.din := rfl
@[simp] theorem accept_dout : (s.accept i).dout = s.dout := rfl
@[simp] theorem accept_st : (s.accept i).st = s.st := rfl
@[simp] theorem accept_rk : (s.accept i).rk = s.rk := rfl
@[simp] theorem accept_base : (s.accept i).base = s.base := rfl
@[simp] theorem accept_exp : (s.accept i).exp = s.exp := rfl
@[simp] theorem accept_mod : (s.accept i).mod = s.mod := rfl
@[simp] theorem accept_res : (s.accept i).res = s.res := rfl
@[simp] theorem accept_rst : (s.accept i).rst = s.rst := rfl
@[simp] theorem accept_agent : (s.accept i).agent = s.agent := rfl
@[simp] theorem accept_schedule : (s.accept i).schedule = s.schedule := rfl
@[simp] theorem accept_resp : (s.accept i).resp = s.resp := rfl

end

/-! ### `raiseError` -/

section

variable (s : State) (e : ErrCode)

@[simp] theorem raiseError_params : (s.raiseError e).params = s.params := rfl
@[simp] theorem raiseError_irqEn : (s.raiseError e).irqEn = s.irqEn := rfl
@[simp] theorem raiseError_busy : (s.raiseError e).busy = s.busy := rfl
@[simp] theorem raiseError_done : (s.raiseError e).done = s.done := rfl
@[simp] theorem raiseError_keyValid : (s.raiseError e).keyValid = s.keyValid := rfl
@[simp] theorem raiseError_err : (s.raiseError e).err = true := rfl
@[simp] theorem raiseError_errCode : (s.raiseError e).errCode = if s.err then s.errCode else e := rfl
@[simp] theorem raiseError_pending : (s.raiseError e).pending = s.pending := rfl
@[simp] theorem raiseError_key : (s.raiseError e).key = s.key := rfl
@[simp] theorem raiseError_din : (s.raiseError e).din = s.din := rfl
@[simp] theorem raiseError_dout : (s.raiseError e).dout = s.dout := rfl
@[simp] theorem raiseError_st : (s.raiseError e).st = s.st := rfl
@[simp] theorem raiseError_rk : (s.raiseError e).rk = s.rk := rfl
@[simp] theorem raiseError_base : (s.raiseError e).base = s.base := rfl
@[simp] theorem raiseError_exp : (s.raiseError e).exp = s.exp := rfl
@[simp] theorem raiseError_mod : (s.raiseError e).mod = s.mod := rfl
@[simp] theorem raiseError_res : (s.raiseError e).res = s.res := rfl
@[simp] theorem raiseError_rst : (s.raiseError e).rst = s.rst := rfl
@[simp] theorem raiseError_agent : (s.raiseError e).agent = s.agent := rfl
@[simp] theorem raiseError_schedule : (s.raiseError e).schedule = s.schedule := rfl
@[simp] theorem raiseError_resp : (s.raiseError e).resp = s.resp := rfl

end

/-! ### `finish` -/

section

variable (s : State) 

@[simp] theorem finish_params : (s.finish).params = s.params := rfl
@[simp] theorem finish_irqEn : (s.finish).irqEn = s.irqEn := rfl
@[simp] theorem finish_busy : (s.finish).busy = false := rfl
@[simp] theorem finish_done : (s.finish).done = true := rfl
@[simp] theorem finish_keyValid : (s.finish).keyValid = s.keyValid := rfl
@[simp] theorem finish_err : (s.finish).err = s.err := rfl
@[simp] theorem finish_errCode : (s.finish).errCode = s.errCode := rfl
@[simp] theorem finish_pending : (s.finish).pending = none := rfl
@[simp] theorem finish_key : (s.finish).key = s.key := rfl
@[simp] theorem finish_din : (s.finish).din = s.din := rfl
@[simp] theorem finish_dout : (s.finish).dout = s.dout := rfl
@[simp] theorem finish_st : (s.finish).st = s.st := rfl
@[simp] theorem finish_rk : (s.finish).rk = s.rk := rfl
@[simp] theorem finish_base : (s.finish).base = s.base := rfl
@[simp] theorem finish_exp : (s.finish).exp = s.exp := rfl
@[simp] theorem finish_mod : (s.finish).mod = s.mod := rfl
@[simp] theorem finish_res : (s.finish).res = s.res := rfl
@[simp] theorem finish_rst : (s.finish).rst = s.rst := rfl
@[simp] theorem finish_agent : (s.finish).agent = .host := rfl
@[simp] theorem finish_schedule : (s.finish).schedule = s.schedule := rfl
@[simp] theorem finish_resp : (s.finish).resp = s.resp := rfl

end

/-! ### `respond` -/

section

variable (s : State) (r : Response)

@[simp] theorem respond_params : (s.respond r).params = s.params := rfl
@[simp] theorem respond_irqEn : (s.respond r).irqEn = s.irqEn := rfl
@[simp] theorem respond_busy : (s.respond r).busy = s.busy := rfl
@[simp] theorem respond_done : (s.respond r).done = s.done := rfl
@[simp] theorem respond_keyValid : (s.respond r).keyValid = s.keyValid := rfl
@[simp] theorem respond_err : (s.respond r).err = s.err := rfl
@[simp] theorem respond_errCode : (s.respond r).errCode = s.errCode := rfl
@[simp] theorem respond_pending : (s.respond r).pending = s.pending := rfl
@[simp] theorem respond_key : (s.respond r).key = s.key := rfl
@[simp] theorem respond_din : (s.respond r).din = s.din := rfl
@[simp] theorem respond_dout : (s.respond r).dout = s.dout := rfl
@[simp] theorem respond_st : (s.respond r).st = s.st := rfl
@[simp] theorem respond_rk : (s.respond r).rk = s.rk := rfl
@[simp] theorem respond_base : (s.respond r).base = s.base := rfl
@[simp] theorem respond_exp : (s.respond r).exp = s.exp := rfl
@[simp] theorem respond_mod : (s.respond r).mod = s.mod := rfl
@[simp] theorem respond_res : (s.respond r).res = s.res := rfl
@[simp] theorem respond_rst : (s.respond r).rst = s.rst := rfl
@[simp] theorem respond_agent : (s.respond r).agent = s.agent := rfl
@[simp] theorem respond_schedule : (s.respond r).schedule = s.schedule := rfl
@[simp] theorem respond_resp : (s.respond r).resp = some r := rfl

end

/-! ### `writeCtrl` -/

section

variable (s : State) (v : Word)

@[simp] theorem writeCtrl_params : (s.writeCtrl v).params = s.params := rfl
@[simp] theorem writeCtrl_irqEn : (s.writeCtrl v).irqEn = v.getLsbD 0 := rfl
@[simp] theorem writeCtrl_busy : (s.writeCtrl v).busy = s.busy := rfl
@[simp] theorem writeCtrl_done : (s.writeCtrl v).done = s.done := rfl
@[simp] theorem writeCtrl_keyValid : (s.writeCtrl v).keyValid = s.keyValid := rfl
@[simp] theorem writeCtrl_err : (s.writeCtrl v).err = s.err := rfl
@[simp] theorem writeCtrl_errCode : (s.writeCtrl v).errCode = s.errCode := rfl
@[simp] theorem writeCtrl_pending : (s.writeCtrl v).pending = s.pending := rfl
@[simp] theorem writeCtrl_key : (s.writeCtrl v).key = s.key := rfl
@[simp] theorem writeCtrl_din : (s.writeCtrl v).din = s.din := rfl
@[simp] theorem writeCtrl_dout : (s.writeCtrl v).dout = s.dout := rfl
@[simp] theorem writeCtrl_st : (s.writeCtrl v).st = s.st := rfl
@[simp] theorem writeCtrl_rk : (s.writeCtrl v).rk = s.rk := rfl
@[simp] theorem writeCtrl_base : (s.writeCtrl v).base = s.base := rfl
@[simp] theorem writeCtrl_exp : (s.writeCtrl v).exp = s.exp := rfl
@[simp] theorem writeCtrl_mod : (s.writeCtrl v).mod = s.mod := rfl
@[simp] theorem writeCtrl_res : (s.writeCtrl v).res = s.res := rfl
@[simp] theorem writeCtrl_rst : (s.writeCtrl v).rst = s.rst := rfl
@[simp] theorem writeCtrl_agent : (s.writeCtrl v).agent = s.agent := rfl
@[simp] theorem writeCtrl_schedule : (s.writeCtrl v).schedule = s.schedule := rfl
@[simp] theorem writeCtrl_resp : (s.writeCtrl v).resp = s.resp := rfl

end

/-! ### `writeStatus` -/

section

variable (s : State) (v : Word)

@[simp] theorem writeStatus_params : (s.writeStatus v).params = s.params := rfl
@[simp] theorem writeStatus_irqEn : (s.writeStatus v).irqEn = s.irqEn := rfl
@[simp] theorem writeStatus_busy : (s.writeStatus v).busy = s.busy := rfl
@[simp] theorem writeStatus_done : (s.writeStatus v).done = (s.done && !v.getLsbD 1) := rfl
@[simp] theorem writeStatus_keyValid : (s.writeStatus v).keyValid = s.keyValid := rfl
@[simp] theorem writeStatus_err : (s.writeStatus v).err = (s.err && !v.getLsbD 3) := rfl
@[simp] theorem writeStatus_errCode : (s.writeStatus v).errCode = if v.getLsbD 3 then .none else s.errCode := rfl
@[simp] theorem writeStatus_pending : (s.writeStatus v).pending = s.pending := rfl
@[simp] theorem writeStatus_key : (s.writeStatus v).key = s.key := rfl
@[simp] theorem writeStatus_din : (s.writeStatus v).din = s.din := rfl
@[simp] theorem writeStatus_dout : (s.writeStatus v).dout = s.dout := rfl
@[simp] theorem writeStatus_st : (s.writeStatus v).st = s.st := rfl
@[simp] theorem writeStatus_rk : (s.writeStatus v).rk = s.rk := rfl
@[simp] theorem writeStatus_base : (s.writeStatus v).base = s.base := rfl
@[simp] theorem writeStatus_exp : (s.writeStatus v).exp = s.exp := rfl
@[simp] theorem writeStatus_mod : (s.writeStatus v).mod = s.mod := rfl
@[simp] theorem writeStatus_res : (s.writeStatus v).res = s.res := rfl
@[simp] theorem writeStatus_rst : (s.writeStatus v).rst = s.rst := rfl
@[simp] theorem writeStatus_agent : (s.writeStatus v).agent = s.agent := rfl
@[simp] theorem writeStatus_schedule : (s.writeStatus v).schedule = s.schedule := rfl
@[simp] theorem writeStatus_resp : (s.writeStatus v).resp = s.resp := rfl

end

end Sys2Proof.Machine.State
end

