-- ==== Sys2Proof/Laws/Ops.lean ====
section
/-! SUPPORT. What the shared operations can do, said once: issuing a command, completing one, and the turn a step
takes. -/

namespace Sys2Proof.Machine

open Sys2Proof

/-- The registers a command's completion writes, before `finish` (R49). -/
def completionEffect : Instr → State → State
  | .nop, s => s
  | .keyexp, s => { s with rk := expand s.key, keyValid := true }
  | .enc, s => { s with st := cipher s.din s.rk, dout := cipher s.din s.rk }
  | .dec, s => { s with st := invCipher s.din s.rk, dout := invCipher s.din s.rk }
  | .zeroize, s => clearSecrets s
  | .stLoad, s => { s with st := s.din }
  | .subBytes, s => { s with st := subBytes s.st }
  | .shiftRows, s => { s with st := shiftRows s.st }
  | .mixColumns, s => { s with st := mixColumns s.st }
  | .addRk n, s => { s with st := addRoundKey s.st s.rk n.toNat }
  | .stStore, s => { s with dout := s.st }
  | .invSubBytes, s => { s with st := invSubBytes s.st }
  | .invShiftRows, s => { s with st := invShiftRows s.st }
  | .invMixColumns, s => { s with st := invMixColumns s.st }
  | .modexp, s =>
    { s with res := setInt s.params.mxWords s.res (powMod (32 * s.params.mxWords) s.baseInt s.expInt s.modInt) }

/-- In the sequencer's hands every command completes with its effect. -/
theorem exec_sequencer (i : Instr) {s : State} (h : s.agent = .sequencer) :
    exec i s = .next (completionEffect i s).finish := by
  cases i <;> simp [exec, execNop, execKeyexp, execEnc, execDec, execZeroize, execStLoad, execSubBytes, execShiftRows,
    execMixColumns, execAddRk, execStStore, execInvSubBytes, execInvShiftRows, execInvMixColumns, execModexp, command,
    completionEffect, h]

/-- What issuing a command does: an error record, nothing for NOP, or acceptance. -/
def issued (i : Instr) (s : State) : State :=
  match issueError i s with
  | some e => s.raiseError e
  | none => if i = .nop then s else s.accept i

/-- In the host's hands every command is issued. -/
theorem exec_host (i : Instr) {s : State} (h : s.agent = .host) : exec i s = .next (issued i s) := by
  cases i <;> simp only [exec, execNop, execKeyexp, execEnc, execDec, execZeroize, execStLoad, execSubBytes,
    execShiftRows, execMixColumns, execAddRk, execStStore, execInvSubBytes, execInvShiftRows, execInvMixColumns,
    execModexp, command, issued, h] <;> split <;> simp_all

/-- `exec` always goes on. -/
theorem exec_next (i : Instr) (s : State) : ∃ t, exec i s = .next t := by
  cases h : s.agent
  · exact ⟨_, exec_host i h⟩
  · exact ⟨_, exec_sequencer i h⟩

/-- While a command is in flight every command is refused with E_BUSY. -/
theorem issueError_busy (i : Instr) {s : State} (h : s.busy = true) : issueError i s = some .busy := by
  simp [issueError, h]

/-- What `issueError i s = none` says: every check passed. -/
theorem issueError_eq_none {i : Instr} {s : State} (h : issueError i s = none) :
    s.busy = false ∧ i.wf = true ∧ (needsInverse i = true → s.params.hasDec = true) ∧
      (needsKey i = true → s.keyValid = true) ∧ (i = .modexp → s.modInt ≠ 0) := by
  simp only [issueError] at h
  split_ifs at h with h1 h2 h3 h4 h5
  simp_all

/-- An issue check never reports "no error". -/
theorem issueError_ne_none_code {i : Instr} {s : State} {e : ErrCode} (h : issueError i s = some e) : e ≠ .none := by
  simp only [issueError] at h
  split_ifs at h <;> simp_all <;> (subst h; simp)

section CompletionFrame

variable (i : Instr) (s : State)

@[simp] theorem completionEffect_params : (completionEffect i s).params = s.params := by cases i <;> simp [completionEffect, clearSecrets]
@[simp] theorem completionEffect_irqEn : (completionEffect i s).irqEn = s.irqEn := by cases i <;> simp [completionEffect, clearSecrets]
@[simp] theorem completionEffect_err : (completionEffect i s).err = s.err := by cases i <;> simp [completionEffect, clearSecrets]
@[simp] theorem completionEffect_errCode : (completionEffect i s).errCode = s.errCode := by cases i <;> simp [completionEffect, clearSecrets]
@[simp] theorem completionEffect_rst : (completionEffect i s).rst = s.rst := by cases i <;> simp [completionEffect, clearSecrets]
@[simp] theorem completionEffect_schedule : (completionEffect i s).schedule = s.schedule := by cases i <;> simp [completionEffect, clearSecrets]
@[simp] theorem completionEffect_resp : (completionEffect i s).resp = s.resp := by cases i <;> simp [completionEffect, clearSecrets]

end CompletionFrame

end Sys2Proof.Machine
end

