-- ==== Sys2Proof/Laws/Bus.lean ====
section
/-! SUPPORT. What a host access and a step can do, said once. -/

namespace Sys2Proof.Machine

open Sys2Proof

/-- Issuing a word in the host's hands: an error record, or the issue of the command it decodes to. -/
theorem issueWord_host (v : Word) {s : State} (h : s.agent = .host) :
    issueWord v s = .next (match decode v with
      | .command i => issued i s
      | .illegal _ => s.raiseError (if s.busy then .busy else .illegal)) := by
  simp only [issueWord]
  split <;> simp_all [exec_host]

/-- Every write to a register goes on. -/
theorem writeReg_next (r : Reg) (v : Word) (s : State) : ∃ t, writeReg r v s = .next t := by
  cases r <;> simp only [writeReg, Host.Outcome.next.injEq, exists_eq']
  simp only [issueWord]
  split
  · exact exec_next _ _
  · exact ⟨_, rfl⟩

/-- Every access inside the window goes on. -/
theorem accessAt_next (off : BitVec 12) (a : Access) (s : State) : ∃ t, accessAt off a s = .next t := by
  cases a <;> simp only [accessAt]
  · split <;> exact ⟨_, rfl⟩
  · split
    · exact writeReg_next _ _ _
    · exact ⟨_, rfl⟩

/-- The offset of an address inside the window, counted from BASE_ADDR (R70). -/
theorem windowOffset_base_add (p : Params) {o : Nat} (h : o < 0x1000) :
    windowOffset p (p.baseAddr + o) = some (BitVec.ofNat 12 o) := by
  simp [windowOffset, h]

/-- The inversion of the sequencer's turn: a completion, or nothing. -/
theorem sequencerTurn_cases {s t : State} (h : sequencerTurn s = .next t) :
    (∃ i, s.busy = true ∧ s.pending = some i ∧ t = (completionEffect i { s with agent := .sequencer }).finish) ∨
    (s.busy = false ∧ t = s) := by
  simp only [sequencerTurn] at h
  split at h
  next hb =>
    split at h
    next i hi =>
      rw [exec_sequencer i rfl] at h
      exact .inl ⟨i, hb, hi, (Host.Outcome.next.inj h).symm⟩
    next => cases h
  next hb => exact .inr ⟨by simpa using hb, (Host.Outcome.next.inj h).symm⟩

/-- The turns of a schedule that give the sequencer the step: its own turn, or none left. -/
abbrev SequencersTurn (s : State) (rest : List Turn) : Prop :=
  s.schedule = .sequencer :: rest ∨ (s.schedule = [] ∧ rest = [])

/-- The five things a step that goes on can be. -/
inductive StepCase (s t : State) : Prop where
  /-- A reset step. -/
  | reset (b : Bool) (rest : List Turn) (hs : s.schedule = .reset b :: rest)
      (ht : t = resetTurn b { s with schedule := rest })
  /-- The pending command completes. -/
  | complete (rest : List Turn) (i : Instr) (hs : SequencersTurn s rest) (hb : s.busy = true)
      (hi : s.pending = some i)
      (ht : t = (completionEffect i { s with schedule := rest, agent := .sequencer }).finish)
  /-- The sequencer's turn on an idle block. -/
  | idle (rest : List Turn) (hs : SequencersTurn s rest) (hb : s.busy = false) (ht : t = { s with schedule := rest })
  /-- An access that does not reach the block. -/
  | outside (a : Access) (rest : List Turn) (hs : s.schedule = .host a :: rest)
      (hw : windowOffset s.params a.addr = none) (ht : t = { s with schedule := rest })
  /-- An access inside the window. -/
  | access (a : Access) (rest : List Turn) (off : BitVec 12) (hs : s.schedule = .host a :: rest)
      (hw : windowOffset s.params a.addr = some off) (hr : s.rst = false)
      (ht : accessAt off a { s with schedule := rest, agent := .host } = .next t)

/-- The inversion of `step`: everything a step that goes on can do. -/
theorem step_cases {s t : State} (h : step s = .next t) : StepCase s t := by
  unfold step at h
  split at h
  next hs =>
    have e : ({ s with schedule := [] } : State) = s := by cases s; simp_all
    rcases sequencerTurn_cases h with ⟨i, hb, hi, ht⟩ | ⟨hb, ht⟩
    · exact .complete [] i (.inr ⟨hs, rfl⟩) hb hi (by rw [e.symm] at ht; exact ht)
    · exact .idle [] (.inr ⟨hs, rfl⟩) hb (by rw [e, ht])
  next turn rest hs =>
    cases turn with
    | sequencer =>
      rcases sequencerTurn_cases h with ⟨i, hb, hi, ht⟩ | ⟨hb, ht⟩
      · exact .complete rest i (.inl hs) hb hi ht
      · exact .idle rest (.inl hs) hb ht
    | reset b => exact .reset b rest hs (Host.Outcome.next.inj h).symm
    | host a =>
      simp only [takeTurn, hostTurn] at h
      split at h
      next hw => exact .outside a rest hs hw (Host.Outcome.next.inj h).symm
      next off hw =>
        split at h
        · cases h
        next hr => exact .access a rest off hs hw (by simpa using hr) h

end Sys2Proof.Machine
end

