-- ==== Sys2Proof/Laws/Cipher.lean ====
section
/-! SUPPORT. Bytes of a packed word and the 4×4 view of column words. -/

namespace Sys2Proof.Machine

open Sys2Proof

section

variable (b0 b1 b2 b3 : Byte)

@[simp] theorem byteOf_zero_word : byteOf 0 (word b0 b1 b2 b3) = b0 := by
  simp only [byteOf, word]; ext i hi; simp; grind
@[simp] theorem byteOf_one_word : byteOf 1 (word b0 b1 b2 b3) = b1 := by
  simp only [byteOf, word]; ext i hi; simp; grind
@[simp] theorem byteOf_two_word : byteOf 2 (word b0 b1 b2 b3) = b2 := by
  simp only [byteOf, word]; ext i hi; simp; grind
@[simp] theorem byteOf_three_word : byteOf 3 (word b0 b1 b2 b3) = b3 := by
  simp only [byteOf, word]; ext i hi; simp; grind

end

/-- A word is its four bytes (R10). -/
theorem word_byteOf (w : Word) : word (byteOf 0 w) (byteOf 1 w) (byteOf 2 w) (byteOf 3 w) = w := by
  simp only [byteOf, word]
  ext i hi
  simp only [BitVec.getElem_append]
  split <;> [skip; split <;> [skip; split]] <;> simp [BitVec.getLsbD_eq_getElem hi] <;> grind

/-- Two words with the same bytes are equal. -/
theorem word_ext {v w : Word} (h : ∀ r : Fin 4, byteOf r v = byteOf r w) : v = w := by
  rw [← word_byteOf v, ← word_byteOf w, h 0, h 1, h 2, h 3]

/-- The bytes of the columns built from a byte matrix (R11). -/
@[simp] theorem byteAt_ofBytes (f : Fin 4 → Fin 4 → Byte) (r c : Fin 4) : byteAt (ofBytes f) r c = f r c := by
  simp only [byteAt, ofBytes, Fin.getElem_fin, Vector.getElem_ofFn, Fin.eta]
  fin_cases r <;> simp

/-- Two blocks with the same bytes are equal (R11). -/
theorem columns_ext {S T : Columns} (h : ∀ r c : Fin 4, byteAt S r c = byteAt T r c) : S = T :=
  Vector.ext fun i hi => word_ext fun r => h r ⟨i, hi⟩

@[simp] theorem byteAt_subBytes (S : Columns) (r c : Fin 4) : byteAt (subBytes S) r c = sbox (byteAt S r c) := by
  simp [subBytes]
@[simp] theorem byteAt_invSubBytes (S : Columns) (r c : Fin 4) :
    byteAt (invSubBytes S) r c = invSbox (byteAt S r c) := by
  simp [invSubBytes]
@[simp] theorem byteAt_shiftRows (S : Columns) (r c : Fin 4) : byteAt (shiftRows S) r c = byteAt S r (c + r) := by
  simp [shiftRows]
@[simp] theorem byteAt_invShiftRows (S : Columns) (r c : Fin 4) :
    byteAt (invShiftRows S) r c = byteAt S r (c - r) := by
  simp [invShiftRows]

/-- Column `c` after the mixing step (R183). -/
theorem mixColumns_getElem (S : Columns) (c : Fin 4) :
    (mixColumns S)[c] = mixColumn (byteAt S 0 c) (byteAt S 1 c) (byteAt S 2 c) (byteAt S 3 c) := by
  simp [mixColumns]
/-- Column `c` after the inverse mixing step (R185). -/
theorem invMixColumns_getElem (S : Columns) (c : Fin 4) :
    (invMixColumns S)[c] = invMixColumn (byteAt S 0 c) (byteAt S 1 c) (byteAt S 2 c) (byteAt S 3 c) := by
  simp [invMixColumns]
/-- Column `c` after adding round key `n` (R180). -/
theorem addRoundKey_getElem (S : Columns) (W : Vector Word 60) {n : Nat} (h : n ≤ 14) (c : Fin 4) :
    (addRoundKey S W n)[c] = S[c] ^^^ W[4 * n + c.val]'(by omega) := by
  have : 4 * n + c.val < 60 := by omega
  simp [addRoundKey, this]

end Sys2Proof.Machine
end

