-- ==== Sys2Proof/Laws/Window.lean ====
section
/-! SUPPORT. The offset map (R72), said once in both directions: where each register stands, and what stands at each
aligned offset. -/

namespace Sys2Proof.Machine

open Sys2Proof

/-- The offset of word `k` of the window is `4k`. -/
theorem toNat_wordOffset {k : Nat} (h : k < 1024) : (BitVec.ofNat 12 (4 * k)).toNat = 4 * k := by
  simp; omega

/-- An aligned offset is that of a word of the window. -/
theorem aligned_offset {off : BitVec 12} (h : off.toNat % 4 = 0) :
    ∃ k : Fin 1024, off = BitVec.ofNat 12 (4 * k.val) ∧ off.toNat = 4 * k.val :=
  ⟨⟨off.toNat / 4, by omega⟩, BitVec.eq_of_toNat_eq (by rw [toNat_wordOffset (by dsimp only; omega)]; dsimp only; omega), by dsimp only; omega⟩

section

theorem locate_key (i : Fin 8) : locate (BitVec.ofNat 12 (0x040 + 4 * i.val)) = .key i := by revert i; decide
theorem locate_din (i : Fin 4) : locate (BitVec.ofNat 12 (0x060 + 4 * i.val)) = .din i := by revert i; decide
theorem locate_dout (i : Fin 4) : locate (BitVec.ofNat 12 (0x070 + 4 * i.val)) = .dout i := by revert i; decide
theorem locate_st (i : Fin 4) : locate (BitVec.ofNat 12 (0x080 + 4 * i.val)) = .st i := by revert i; decide
theorem locate_rk (i : Fin 60) : locate (BitVec.ofNat 12 (0x100 + 4 * i.val)) = .rk i := by
  revert i; decide +kernel
theorem locate_base (i : Fin 128) : locate (BitVec.ofNat 12 (0x200 + 4 * i.val)) = .base i := by
  revert i; decide +kernel
theorem locate_exp (i : Fin 128) : locate (BitVec.ofNat 12 (0x400 + 4 * i.val)) = .exp i := by
  revert i; decide +kernel
theorem locate_mod (i : Fin 128) : locate (BitVec.ofNat 12 (0x600 + 4 * i.val)) = .mod i := by
  revert i; decide +kernel
theorem locate_res (i : Fin 128) : locate (BitVec.ofNat 12 (0x800 + 4 * i.val)) = .res i := by
  revert i; decide +kernel

end

/-- A named register stands where the host's notation puts it (R107). -/
theorem locate_offsetOf {r : Reg} {o : Nat} (h : offsetOf r = some o) : locate (BitVec.ofNat 12 o) = r := by
  cases r <;> simp only [offsetOf, Option.some.injEq, reduceCtorEq] at h <;> subst h
  case key i => exact locate_key i
  case din i => exact locate_din i
  case dout i => exact locate_dout i
  case st i => exact locate_st i
  case rk i => exact locate_rk i
  case base i => exact locate_base i
  case exp i => exact locate_exp i
  case mod i => exact locate_mod i
  case res i => exact locate_res i
  all_goals rfl

/-- What a register found at word `k` of the window says of `k`: the inversion of the offset map. -/
def StandsAt (k : Nat) : Reg → Bool
  | .id => k == 0x000 / 4
  | .cfg => k == 0x004 / 4
  | .ctrl => k == 0x008 / 4
  | .status => k == 0x00C / 4
  | .cmd => k == 0x010 / 4
  | .key i => k == 0x040 / 4 + i.val
  | .din i => k == 0x060 / 4 + i.val
  | .dout i => k == 0x070 / 4 + i.val
  | .st i => k == 0x080 / 4 + i.val
  | .rk i => k == 0x100 / 4 + i.val
  | .base i => k == 0x200 / 4 + i.val
  | .exp i => k == 0x400 / 4 + i.val
  | .mod i => k == 0x600 / 4 + i.val
  | .res i => k == 0x800 / 4 + i.val
  | .reserved => decide
      ((0x014 / 4 ≤ k ∧ k ≤ 0x03C / 4) ∨ (0x090 / 4 ≤ k ∧ k ≤ 0x0FC / 4) ∨ (0x1F0 / 4 ≤ k ∧ k ≤ 0x1FC / 4) ∨
        0xA00 / 4 ≤ k)

/-- The register the map gives for an aligned offset stands there. -/
theorem standsAt_locate (k : Fin 1024) : StandsAt k.val (locate (BitVec.ofNat 12 (4 * k.val))) = true := by
  revert k; decide +kernel

/-- The reserved offsets. -/
theorem locate_reserved (k : Fin 1024)
    (h : (0x014 / 4 ≤ k.val ∧ k.val ≤ 0x03C / 4) ∨ (0x090 / 4 ≤ k.val ∧ k.val ≤ 0x0FC / 4) ∨
      (0x1F0 / 4 ≤ k.val ∧ k.val ≤ 0x1FC / 4) ∨ 0xA00 / 4 ≤ k.val) :
    locate (BitVec.ofNat 12 (4 * k.val)) = .reserved := by
  revert k; decide +kernel

end Sys2Proof.Machine
end

