-- ==== Sys2Proof/Laws/HostProgram.lean ====
section
/-! SUPPORT. What a draw does: a run of a host's program is a run of the machine on the turns it drew, and a WAIT ends
exactly at a read that shows BUSY = 0. -/

namespace Sys2Proof.Machine

open Sys2Proof

/-- A read of STATUS in the host's turn: the answer is its value, and nothing else changes. -/
theorem step_readStatus (s : State) (rest : List Turn) (h : s.rst = false) :
    step { s with schedule := .host (.read (s.params.baseAddr + 0x00C) .word) :: rest } =
      .next { s with schedule := rest, agent := .host, resp := some (.data s.statusWord) } := by
  simp only [step, takeTurn, hostTurn, Access.addr, windowOffset_base_add _ (show 0x00C < 0x1000 by omega), h]
  rfl

@[simp] theorem getLsbD_statusWord_zero (s : State) : s.statusWord.getLsbD 0 = s.busy := by
  simp only [State.statusWord, BitVec.getLsbD_append]
  simp

namespace HostRun

/-- The host's draw at a WAIT: STATUS is read, and the WAIT is over exactly when BUSY = 0 (R108). -/
theorem draw_wait {r : HostRun} {rest : List HostOp} (ht : r.todo = .waitIdle :: rest) (h : r.block.rst = false) :
    r.draw .host = .next
      { r with
        block := { r.block with agent := .host, resp := some (.data r.block.statusWord) }
        todo := if r.block.busy then r.todo else rest } := by
  simp only [draw, turn, ht, List.head?_cons, Option.map_some, HostOp.access,
    step_readStatus r.block r.block.schedule h, advance, answer, Option.any_some, getLsbD_statusWord_zero]

/-- Everything a draw that goes on can be: the host with nothing to do, or one step of the block. -/
theorem draw_cases {r r' : HostRun} {d : Draw} (h : r.draw d = .next r') :
    (r.turn d = none ∧ r' = r) ∨
    ∃ t b, r.turn d = some t ∧ step { r.block with schedule := t :: r.block.schedule } = .next b ∧ r' = r.advance d b := by
  simp only [draw] at h
  split at h
  next ht => exact .inl ⟨ht, (Host.Outcome.next.inj h).symm⟩
  next t ht =>
    split at h <;> cases h
    exact .inr ⟨t, _, ht, ‹_›, rfl⟩

/-- A draw changes the block by a step of it. -/
@[simp] theorem advance_block (r : HostRun) (d : Draw) (b : State) : (r.advance d b).block = b := by
  unfold advance; split <;> rfl

end HostRun

end Sys2Proof.Machine
end

