-- ==== Sys2Proof/Laws/ModExp.lean ====
section
/-! SUPPORT. Multi-word integers: `Int` of a `SetInt` and its bounds. -/

namespace Sys2Proof.Machine

open Sys2Proof

/-- An integer of `n` words is below `2^(32n)` (R230). -/
theorem intOf_lt (v : Vector Word 128) (n : Nat) : intOf v n < 2 ^ (32 * n) := by
  induction n with
  | zero => simp [intOf]
  | succ n ih =>
    have := (v[n]?.getD 0).isLt
    rw [intOf, show 32 * (n + 1) = 32 * n + 32 by ring, pow_add]
    nlinarith [Nat.two_pow_pos (32 * n)]

/-- The elements `SetInt` writes and those it leaves (R12). -/
theorem setInt_getElem (n : Nat) (v : Vector Word 128) (x : Nat) (i : Fin 128) :
    (setInt n v x)[i] = if i.val < n then BitVec.ofNat 32 (x >>> (32 * i.val)) else v[i] := by
  simp [setInt]

/-- Reading back the first `k` of the words `SetInt` wrote (R12). -/
theorem intOf_setInt {n k : Nat} (hk : k ≤ n) (hn : n ≤ 128) (v : Vector Word 128) (x : Nat) :
    intOf (setInt n v x) k = x % 2 ^ (32 * k) := by
  induction k with
  | zero => simp [intOf, Nat.mod_one]
  | succ k ih =>
    have hk' : k < 128 := by omega
    have hkn : k < n := by omega
    rw [intOf, ih (by omega)]
    have e : (setInt n v x)[k]?.getD 0 = BitVec.ofNat 32 (x >>> (32 * k)) := by
      rw [Vector.getElem?_eq_getElem hk']
      simpa [hkn] using setInt_getElem n v x ⟨k, hk'⟩
    rw [e, BitVec.toNat_ofNat, Nat.shiftRight_eq_div_pow, show 32 * (k + 1) = 32 * k + 32 by ring, pow_add,
      Nat.mod_mul]
    ring

end Sys2Proof.Machine
end

