-- ==== Sys2Proof/Laws/PerInstr.lean ====
section
/-! SUPPORT. The family RoundTrip: decoding the encoding of a well-formed command gives it back (R105, R106). -/

namespace Sys2Proof.Laws.RoundTrip

open Sys2Proof

/-- What the family says of one command. -/
def Statement (i : Instr) : Prop := i.wf = true → decode (encode i) = .command i

theorem nop : Statement .nop := fun _ => by decide
theorem keyexp : Statement .keyexp := fun _ => by decide
theorem enc : Statement .enc := fun _ => by decide
theorem dec : Statement .dec := fun _ => by decide
theorem zeroize : Statement .zeroize := fun _ => by decide
theorem stLoad : Statement .stLoad := fun _ => by decide
theorem subBytes : Statement .subBytes := fun _ => by decide
theorem shiftRows : Statement .shiftRows := fun _ => by decide
theorem mixColumns : Statement .mixColumns := fun _ => by decide
theorem addRk (n : Byte) : Statement (.addRk n) := by
  unfold Statement
  revert n
  decide +kernel
theorem stStore : Statement .stStore := fun _ => by decide
theorem invSubBytes : Statement .invSubBytes := fun _ => by decide
theorem invShiftRows : Statement .invShiftRows := fun _ => by decide
theorem invMixColumns : Statement .invMixColumns := fun _ => by decide
theorem modexp : Statement .modexp := fun _ => by decide

end Sys2Proof.Laws.RoundTrip
end

