-- ==== Sys2Proof/Tests/Slice0.lean ====
section
/-! SUPPORT. Tests of one step or one word each, expected values from the spec's rules and 95_test_vectors.md, and for
every statement with hypotheses a state and operands that meet them (`witness_…`). -/

namespace Sys2Proof.Tests

open Sys2Proof Sys2Proof.Machine Sys2Proof.Claim

-- One theorem at a time: each kernel evaluation waiting beside the others would hold a thread's stack.
set_option Elab.async false

/-! ## Helpers -/

/-- The next state, if there is one. -/
def nextOf : Host.Outcome State Fault Refusal → Option State
  | .next t => some t
  | .fault _ => none
  | .refused _ => none

/-- One step on one command word, written to CMD. -/
def onWord (s : State) (w : Nat) : Option State := nextOf (step (s.withFetchWord 32 w))

/-- One step of the host's access `a`. -/
def onAccess (s : State) (a : Access) : Option State := nextOf (step { s with schedule := [.host a] })

/-- `s` with the command in flight. -/
def flight (i : Instr) (s : State) : State := { s with busy := true, pending := some i }

/-- The completion step of a command in flight. -/
def completing (i : Instr) (s : State) : Option State := nextOf (step (flight i s))

/-- What STATUS reads. -/
def status (t : Option State) : Option Word := t.map State.statusWord

/-- `s` in a step of the sequencer. -/
def seqOf (s : State) : State := { s with agent := .sequencer }

/-- The reset state of a build without the inverse cipher. -/
def noDec : State := State.resetWith { mxWords := 64, hasDec := false, basePage := 0 }

/-- A build whose window does not start at address 0. -/
def highPage : State := State.resetWith { mxWords := 1, hasDec := true, basePage := 1 }

/-- The block X of the vectors. -/
def blockX : Columns := #v[0x00112233, 0x44556677, 0x8899aabb, 0xccddeeff]

/-- The key 00..1f. -/
def keyC3 : Vector Word 8 :=
  #v[0x00010203, 0x04050607, 0x08090a0b, 0x0c0d0e0f, 0x10111213, 0x14151617, 0x18191a1b, 0x1c1d1e1f]

/-- The key of V-KS-1. -/
def keyA3 : Vector Word 8 :=
  #v[0x603deb10, 0x15ca71be, 0x2b73aef0, 0x857d7781, 0x1f352c07, 0x3b6108d7, 0x2d9810a3, 0x0914dff4]

/-- Reset, then the key 00..1f expanded and X in DIN. -/
def keyed : State := { State.reset with key := keyC3, rk := expand keyC3, keyValid := true, din := blockX }

/-- A one-word integer. -/
def int1 (w : Word) : Vector Word 128 := (Vector.replicate 128 0).set 0 w

/-- Reset with one-word MODEXP operands. -/
def mx (b e m : Word) : State := { State.reset with base := int1 b, exp := int1 e, mod := int1 m }

/-! ## Well-formedness -/

theorem test_wf_addRk_14 : (Instr.addRk 14).wf = true := by decide
theorem test_wf_addRk_15_refused : (Instr.addRk 15).wf = false := by decide
theorem test_wf_addRk_255_refused : (Instr.addRk 255).wf = false := by decide

/-! ## Decoding: RSVD, ARG and OP written out from R100 and R103 -/

theorem test_decode_nop : decode 0b0000000000000000_00000000_00000000 = .command .nop := by decide
theorem test_decode_keyexp : decode 0b0000000000000000_00000000_00000001 = .command .keyexp := by decide
theorem test_decode_enc : decode 0b0000000000000000_00000000_00000010 = .command .enc := by decide
theorem test_decode_dec : decode 0b0000000000000000_00000000_00000011 = .command .dec := by decide
theorem test_decode_zeroize : decode 0b0000000000000000_00000000_00000100 = .command .zeroize := by decide
theorem test_decode_stLoad : decode 0b0000000000000000_00000000_00010000 = .command .stLoad := by decide
theorem test_decode_subBytes : decode 0b0000000000000000_00000000_00010001 = .command .subBytes := by decide
theorem test_decode_shiftRows : decode 0b0000000000000000_00000000_00010010 = .command .shiftRows := by decide
theorem test_decode_mixColumns : decode 0b0000000000000000_00000000_00010011 = .command .mixColumns := by decide
theorem test_decode_addRk_0 : decode 0b0000000000000000_00000000_00010100 = .command (.addRk 0) := by decide
theorem test_decode_addRk_9 : decode 0b0000000000000000_00001001_00010100 = .command (.addRk 9) := by decide
theorem test_decode_addRk_14 : decode 0b0000000000000000_00001110_00010100 = .command (.addRk 14) := by decide
theorem test_decode_stStore : decode 0b0000000000000000_00000000_00010101 = .command .stStore := by decide
theorem test_decode_invSubBytes : decode 0b0000000000000000_00000000_00011001 = .command .invSubBytes := by decide
theorem test_decode_invShiftRows : decode 0b0000000000000000_00000000_00011010 = .command .invShiftRows := by decide
theorem test_decode_invMixColumns : decode 0b0000000000000000_00000000_00011011 = .command .invMixColumns := by decide
theorem test_decode_modexp : decode 0b0000000000000000_00000000_00100000 = .command .modexp := by decide

/-- The illegal words of V-ISS-1. -/
theorem test_decode_illegal :
    decode 0x00000f14 = .illegal .roundKeyIndex ∧ decode 0x00000102 = .illegal .argNotZero ∧
    decode 0x00010002 = .illegal .reservedBits ∧ decode 0x80000000 = .illegal .reservedBits ∧
    decode 0x00000016 = .illegal .unassignedOp ∧ decode 0x00000021 = .illegal .unassignedOp := by decide

/-- The table's entry: a 32-bit row, an ADD_RK word, an illegal word, and a word that is no word. -/
theorem test_decodeTableWord :
    decodeTableWord 32 0x20 = some .modexp ∧ decodeTableWord 32 0xE14 = some (.addRk 14) ∧
    decodeTableWord 32 0xF14 = none ∧ decodeTableWord 40 0x100000020 = none := by decide

/-! ## Steps on command words: V-ISS-1 to V-ISS-3 -/

/-- V-ISS-1's start state: KEY_VALID = 1 and `Int(MOD) = 5`. -/
def iss1 : State := { State.reset with keyValid := true, mod := int1 5 }

theorem test_issue_nop : status (onWord iss1 0x00) = some 0x00000004 := by decide +kernel
theorem test_issue_keyexp : status (onWord iss1 0x01) = some 0x00000001 := by decide +kernel
theorem test_issue_addRk : status (onWord iss1 0xE14) = some 0x00000005 := by decide +kernel
theorem test_issue_modexp : status (onWord iss1 0x20) = some 0x00000005 := by decide +kernel
theorem test_issue_invMixColumns : status (onWord iss1 0x1B) = some 0x00000005 := by decide +kernel
theorem test_issue_illegal : status (onWord iss1 0x102) = some 0x0000010c := by decide +kernel

/-- V-ISS-2's priorities. -/
theorem test_priority :
    status (onWord (flight .enc State.reset) 0xF14) = some 0x00000209 ∧
    status (onWord State.reset 0xF14) = some 0x00000108 ∧
    status (onWord noDec 0x03) = some 0x00000408 ∧
    status (onWord State.reset 0x02) = some 0x00000308 ∧
    status (onWord State.reset 0x20) = some 0x00000508 ∧
    status (onWord { State.reset with err := true, errCode := .noKey } 0xF14) = some 0x00000308 := by decide +kernel

/-- V-ISS-3: `irq` after a completion, and after the host clears DONE. -/
theorem test_irq :
    (completing .keyexp { State.reset with irqEn := true }).map (fun t => (t.statusWord, t.irq)) = some (0x6, true) ∧
    (onAccess { State.reset with irqEn := true, keyValid := true, done := true } (.write 0x00C .word 2)).map
      (fun t => (t.statusWord, t.irq)) = some (0x4, false) := by decide +kernel

/-! ## Completions -/

/-- V-KS-1. -/
theorem test_keyexp_a3 :
    (completing .keyexp { State.reset with key := keyA3 }).map (fun t => (t.rk[8], t.rk[12], t.rk[59], t.statusWord)) =
      some (0x9ba35411, 0xa8b09c1a, 0x706c631e, 6) := by decide +kernel

/-- V-KS-3's all-ones key. -/
theorem test_keyexp_ones :
    (completing .keyexp { State.reset with key := Vector.replicate 8 0xffffffff }).map (fun t => (t.rk[56], t.rk[59])) =
      some (0x546d424f, 0x4dae355e) := by decide +kernel

/-- V-ENC-1. -/
theorem test_enc : (completing .enc keyed).map (fun t => (t.dout, t.st, t.statusWord)) =
    some (#v[0x8ea2b7ca, 0x516745bf, 0xeafc4990, 0x4b496089], #v[0x8ea2b7ca, 0x516745bf, 0xeafc4990, 0x4b496089], 6) := by
  decide +kernel

/-- V-DEC-1. -/
theorem test_dec :
    (completing .dec { keyed with din := #v[0x8ea2b7ca, 0x516745bf, 0xeafc4990, 0x4b496089] }).map
      (fun t => (t.dout, t.st)) = some (blockX, blockX) := by decide +kernel

/-- R252: KEY, RK and DOUT zero, STATUS shows DONE only. -/
theorem test_zeroize : (completing .zeroize { keyed with dout := blockX, irqEn := true, mod := int1 5 }).map
    (fun t => (t.key[0], t.rk[59], t.dout[3], t.mod[0], t.irqEn, t.statusWord)) = some (0, 0, 0, 0, true, 2) := by
  decide +kernel

theorem test_stLoad : (completing .stLoad keyed).map (·.st) = some blockX := by decide +kernel
theorem test_subBytes : (completing .subBytes { keyed with st := blockX }).map (·.st) =
    some #v[0x638293c3, 0x1bfc33f5, 0xc4eeacea, 0x4bc12816] := by decide +kernel
theorem test_shiftRows : (completing .shiftRows { keyed with st := blockX }).map (·.st) =
    some #v[0x0055aaff, 0x4499ee33, 0x88dd2277, 0xcc1166bb] := by decide +kernel
theorem test_mixColumns :
    (completing .mixColumns { keyed with st := #v[0xdb135345, 0xf20a225c, 0x01010101, 0xc6c6c6c6] }).map (·.st) =
      some #v[0x8e4da1bc, 0x9fdc589d, 0x01010101, 0xc6c6c6c6] := by decide +kernel
theorem test_addRk_0 : (completing (.addRk 0) { keyed with st := blockX }).map (·.st) =
    some #v[0x00102030, 0x40506070, 0x8090a0b0, 0xc0d0e0f0] := by decide +kernel
/-- V-KS-3's RK[56..59] on a zero state. -/
theorem test_addRk_14 : (completing (.addRk 14) keyed).map (·.st) =
    some #v[0x24fc79cc, 0xbf0979e9, 0x371ac23c, 0x6d68de36] := by decide +kernel
theorem test_stStore : (completing .stStore { keyed with st := blockX }).map (·.dout) = some blockX := by decide +kernel
theorem test_invSubBytes :
    (completing .invSubBytes { keyed with st := #v[0x638293c3, 0x1bfc33f5, 0xc4eeacea, 0x4bc12816] }).map (·.st) =
      some blockX := by decide +kernel
theorem test_invShiftRows : (completing .invShiftRows { keyed with st := blockX }).map (·.st) =
    some #v[0x00ddaa77, 0x4411eebb, 0x885522ff, 0xcc996633] := by decide +kernel
theorem test_invMixColumns :
    (completing .invMixColumns { keyed with st := #v[0x8e4da1bc, 0x9fdc589d, 0x01010101, 0xc6c6c6c6] }).map (·.st) =
      some #v[0xdb135345, 0xf20a225c, 0x01010101, 0xc6c6c6c6] := by decide +kernel

/-- V-MX-14: an intermediate product of 64 bits. -/
theorem test_modexp_wide_product : (completing .modexp (mx 0xffffffff 2 0xfffffffb)).map (fun t => (t.res[0], t.res[1])) =
    some (0x10, 0) := by decide +kernel

/-- V-MX-18: two-word operands and result. -/
theorem test_modexp_two_words :
    (completing .modexp { mx 3 1 0xffffffc5 with exp := (int1 1).set 1 1, mod := (int1 0xffffffc5).set 1 0xffffffff }).map
      (fun t => (t.res[0], t.res[1], t.res[2])) = some (0x7f0ea55f, 0xca432df3, 0) := by decide +kernel

/-! ## Register access vectors -/

theorem test_read_id : (onAccess State.reset (.read 0x000 .word)).map (·.resp) = some (some (.data 0x4b504331)) := by
  decide +kernel
theorem test_read_cfg : State.reset.cfgWord = 0x140 ∧
    (State.resetWith { mxWords := 128, hasDec := false, basePage := 0 }).cfgWord = 0x80 := by decide
theorem test_read_dout_element : (onAccess { State.reset with dout := blockX } (.read 0x07C .word)).map (·.resp) =
    some (some (.data 0xccddeeff)) := by decide +kernel
theorem test_narrow_and_misaligned :
    onAccess keyed (.write 0x060 .half 1) = some { keyed with resp := some .busError } ∧
    onAccess keyed (.read 0x042 .word) = some { keyed with resp := some .busError } := by decide +kernel
theorem test_status_write_clears :
    status (onAccess { State.reset with done := true, err := true, errCode := .busy } (.write 0x00C .word 0xa)) = some 0 ∧
    status (onAccess { State.reset with done := true } (.write 0x00C .word 1)) = some 2 := by decide +kernel
theorem test_din_write_while_busy :
    (onAccess (flight .enc keyed) (.write 0x060 .word 0xffffffff)).map (fun t => (t.din, t.errCode)) =
      some (blockX, .busy) := by decide +kernel
theorem test_key_write_clears_key_valid :
    (onAccess keyed (.write 0x05C .word 0x1c1d1e1f)).map (fun t => (t.key, t.keyValid)) = some (keyC3, false) := by
  decide +kernel

/-- V-MX-21: with `MX_WORDS = 1`, BASE[1] ignores writes and reads 0. -/
theorem test_missing_element :
    onAccess highPage (.write 0x1204 .word 7) = some { highPage with resp := some .okay } ∧
    (onAccess highPage (.read 0x1204 .word)).map (·.resp) = some (some (.data 0)) := by decide +kernel

/-! ## The host's notation, from P1's, P3's and P5's tables -/

/-- LDBLK, CMD ENC, WAIT and RD of P1. -/
theorem test_notation_p1 :
    programOps Params.testBuild
      [.ldBlk (Vector.ofFn fun i => BitVec.ofNat 8 (0x11 * i.val)), .cmd .enc, .wait, .rd (.dout 3)] =
    [.write 0x060 0x00112233, .write 0x064 0x44556677, .write 0x068 0x8899aabb, .write 0x06C 0xccddeeff,
     .write 0x010 2, .waitIdle, .read 0x07C] := by decide +kernel

/-- LDINT MOD, 23 of P3: 64 writes, the first and the last. -/
theorem test_notation_ldInt :
    let l := HostStmt.ops Params.testBuild (.ldMod 23)
    l.length = 64 ∧ l.head? = some (.write 0x600 0x17) ∧ l.getLast? = some (.write 0x6FC 0) := by decide +kernel

/-- P5 after its CMD ENC: the write to DIN with no WAIT before it, then WAIT and the read of STATUS. -/
def p5 : HostRun := HostRun.start (flight .enc keyed) [.wr (.din 0) 0xffffffff, .wait, .rd .status]

/-- What a run of P5 shows at its end: nothing left to do, STATUS as read, DIN[0] and DOUT[0]. -/
def p5Shows (ds : List Draw) : Option (Bool × List Word × Word × Word) :=
  match p5.run ds with
  | .next r => some (r.todo.isEmpty, r.recorded, r.block.din[0], r.block.dout[0])
  | .fault _ => none
  | .refused _ => none

/-- P5's schedule A, two reads of the WAIT before the completion: the write is refused. -/
theorem test_p5_schedule_a : p5Shows [.host, .host, .host, .sequencer, .host, .host] =
    some (true, [0x0000020e], 0x00112233, 0x8ea2b7ca) := by decide +kernel

/-- P5's schedule B, the completion first: the write is done, and the WAIT ends at its first read. -/
theorem test_p5_schedule_b : p5Shows [.sequencer, .host, .host, .host] =
    some (true, [0x00000006], 0xffffffff, 0x8ea2b7ca) := by decide +kernel

/-- A WAIT on an idle block ends at its first read (R304). -/
theorem test_wait_idle : (match (HostRun.start keyed [.wait]).draw .host with
    | .next r => some (r.todo, r.recorded)
    | .fault _ => none
    | .refused _ => none) = some ([], []) := by decide +kernel

/-! ## Witnesses: command words -/

theorem witness_DecodeOfEncode : (Instr.addRk 0).wf = true ∧ (Instr.addRk 14).wf = true ∧ Instr.modexp.wf = true := by
  decide
theorem witness_EncodeOfDecode : decode 0xE14 = .command (.addRk 14) := by decide
theorem witness_IllegalWordsAreRefused :
    (decode 0x00010002 = .illegal .reservedBits ∧ decode 0xFF = .illegal .unassignedOp ∧
      decode 0x120 = .illegal .argNotZero ∧ decode 0xFF14 = .illegal .roundKeyIndex) ∧
    State.reset.agent = .host ∧ State.reset.busy = false ∧
    noDec.agent = .host ∧ noDec.busy = false ∧ noDec.params.hasDec = false := by decide

/-! ## Witnesses: steps -/

theorem witness_StepIssuesTheDecodedCommand :
    (({ keyed with schedule := [.host (.read 0xFFC .word)] } : State).rst = false ∧
      ({ keyed with schedule := [.host (.read 0xFFC .word)] } : State).schedule = .host (.read 0xFFC .word) :: [] ∧
      windowOffset keyed.params (Access.read 0xFFC .word).addr = some 0xFFC) ∧
    (keyed.withFetchWord 32 0xE14).rst = false ∧
    (keyed.withFetchWord 32 0xE14).schedule = .host (.write (keyed.params.baseAddr + 0x010) .word 0xE14) :: [] ∧
    decode 0xE14 = .command (.addRk 14) := by decide +kernel
theorem witness_StepCompletesThePendingCommand :
    (flight .enc keyed).schedule = [] ∧ (flight .enc keyed).busy = true ∧ (flight .enc keyed).pending = some .enc ∧
    ({ flight .enc keyed with schedule := [.sequencer] } : State).schedule = .sequencer :: [] := by decide +kernel
theorem witness_IssueChecksInOrder :
    State.reset.agent = .host ∧ State.reset.busy = false ∧ State.reset.keyValid = false ∧
    noDec.agent = .host ∧ noDec.busy = false ∧ noDec.keyValid = false ∧ noDec.params.hasDec = false := by decide
theorem witness_FirstErrorIsKept :
    State.reset.err = false ∧ ({ State.reset with err := true, errCode := .noKey } : State).err = true := by decide

/-- An illegal word on the idle block, and an operand write on a busy one at the last existing element of MOD. -/
theorem witness_ErrorsArePrecise_OnlyTheseActionsRaise :
    (∃ t, step (State.reset.withFetchWord 32 0xF14) = .next t ∧ t.err = true) ∧
    (∃ t, step { flight .enc keyed with schedule := [.host (.write 0x6FC .word 1)] } = .next t ∧ t.err = true ∧
      t.errCode = .busy) ∧
    State.reset.err = false ∧ (flight .enc keyed).err = false := by
  exact ⟨⟨_, rfl, by decide +kernel⟩, ⟨_, rfl, by decide +kernel, by decide +kernel⟩, rfl, rfl⟩

/-! ## Witnesses: the register window -/

/-- The reserved offsets at the ends of their ranges. -/
theorem witness_ReservedOffset :
    ∀ off ∈ [0x014, 0x03C, 0x090, 0x0FC, 0x1F0, 0x1FC, 0xA00, 0xFFC], ReservedOffset off := by
  simp [ReservedOffset]

/-- BusReadMap, BusWriteMap: what the clauses give at the edges of the arrays, on one state with 64 implemented words. -/
theorem witness_BusReadMap :
    accessAt 0x05C (.read 0x05C .word) keyed = .next { keyed with resp := some (.data 0x1c1d1e1f) } ∧
    accessAt 0x1EC (.read 0x1EC .word) keyed = .next { keyed with resp := some (.data 0x6d68de36) } ∧
    (63 < keyed.params.mxWords ∧ ¬ 64 < keyed.params.mxWords) := ⟨by rfl, by rfl, by decide⟩
theorem witness_BusWriteMap :
    (flight .enc keyed).busy = true ∧ keyed.busy = false ∧ (keyed.params.mxWords ≤ 64 ∧ ¬ keyed.params.mxWords ≤ 63) := by
  decide
theorem witness_LegalAccessesAreAnswered :
    (∃ t, accessAt 0xFFC (.read 0xFFC .word) keyed = .next t) ∧ (∃ t, accessAt 0xFFE (.read 0xFFE .word) keyed = .next t) ∧
    (∃ t, accessAt 0x010 (.write 0x010 .word 0x20) keyed = .next t) ∧
    (∃ t, accessAt 0x010 (.write 0x010 .byte 0x20) keyed = .next t) :=
  ⟨accessAt_next _ _ _, accessAt_next _ _ _, accessAt_next _ _ _, accessAt_next _ _ _⟩
theorem witness_IllegalAccessChangesNothing :
    let s : State := { keyed with schedule := [.host (.read 0xFFE .word)] }
    let u : State := { keyed with schedule := [.host (.write 0x010 .byte 1)] }
    (s.rst = false ∧ s.schedule = .host (.read 0xFFE .word) :: [] ∧
      windowOffset s.params (Access.read 0xFFE .word).addr = some 0xFFE ∧ (0xFFE#12).toNat % 4 ≠ 0) ∧
    (u.rst = false ∧ u.schedule = .host (.write 0x010 .byte 1) :: [] ∧
      windowOffset u.params (Access.write 0x010 .byte 1).addr = some 0x010 ∧ AccessSize.byte ≠ .word) := by
  decide +kernel
theorem witness_IdentificationIsConstant : ∃ t, step (State.reset.withFetchWord 32 0x02) = .next t := ⟨_, rfl⟩

/-- Each clause's antecedent, BUSY and DONE: a command accepted, a completion, and DONE cleared by a STATUS write and by
an acceptance. -/
theorem witness_FlagsChangeOnlyAsTabled_busy_done :
    (onWord { keyed with done := true } 0x02).map (fun t => (t.busy, t.done)) = some (true, false) ∧
    (completing .enc keyed).map (fun t => (t.busy, t.done)) = some (false, true) ∧ (flight .enc keyed).done = false ∧
    (onAccess { keyed with done := true } (.write 0x00C .word 2)).map (·.done) = some false ∧ keyed.busy = false := by
  decide +kernel

/-- Each clause's antecedent, KEY_VALID, ERR and ERR_CODE: a KEYEXP completing, the ways KEY_VALID is cleared, an error
recorded and one cleared. -/
theorem witness_FlagsChangeOnlyAsTabled_key_err :
    (completing .keyexp State.reset).map (·.keyValid) = some true ∧ (flight .keyexp State.reset).keyValid = false ∧
    (onAccess keyed (.write 0x040 .word 0)).map (·.keyValid) = some false ∧
    (onAccess keyed (.write 0x05C .word 0)).map (·.keyValid) = some false ∧
    (onWord keyed 0x01).map (·.keyValid) = some false ∧
    (completing .zeroize keyed).map (·.keyValid) = some false ∧ keyed.keyValid = true ∧
    (onWord keyed 0x0F14).map (fun t => (t.err, t.errCode)) = some (true, .illegal) ∧ keyed.err = false ∧
    (onAccess { keyed with err := true, errCode := .busy } (.write 0x00C .word 8)).map (fun t => (t.err, t.errCode)) =
      some (false, .none) := by decide +kernel

/-- A completion that changes a register, and writes to the last elements: MOD[63] of 64, which exists, and MOD[64]. -/
theorem witness_EachRegisterHasItsWriters :
    ((∃ t, step (flight .keyexp keyed) = .next t) ∧ ¬ ResetsNext (flight .keyexp keyed)) ∧
    (onAccess keyed (.write 0x6FC .word 1)).map (·.mod[63]) = some 1 ∧
    (onAccess keyed (.write 0x700 .word 1)).map (·.mod) = some keyed.mod :=
  ⟨⟨exec_next .keyexp (seqOf (flight .keyexp keyed)), by
      simp [ResetsNext, flight, keyed, State.reset, State.resetWith]⟩, by decide +kernel, by decide +kernel⟩

theorem witness_OutsideWindowNothingHappens :
    let s : State := { highPage with schedule := [.host (.read 0xFFF .word)] }
    let u : State := { highPage with schedule := [.host (.read 0x2000 .word)] }
    (s.schedule = .host (.read 0xFFF .word) :: [] ∧ (Access.read 0xFFF .word).addr < s.params.baseAddr) ∧
    (u.schedule = .host (.read 0x2000 .word) :: [] ∧
      u.params.baseAddr + 0xFFF < (Access.read 0x2000 .word).addr) := by
  decide +kernel
theorem witness_IdleSequencerHoldsEverything :
    ({ keyed with schedule := [.sequencer] } : State).schedule = .sequencer :: [] ∧ keyed.busy = false := by decide +kernel

/-! ## Witnesses: interrupt and reset -/

theorem witness_InterruptFollowsItsSources :
    (completing .enc { keyed with irqEn := true }).map (fun t => (t.irqEn, t.busy)) = some (true, false) ∧
    ({ State.reset with done := true } : State).done = true ∧ ({ State.reset with err := true } : State).err = true := by
  decide +kernel
theorem witness_ResetValues :
    ({ mxWords := 1, hasDec := false, basePage := 0 } : Params).Legal ∧
    ({ mxWords := 128, hasDec := true, basePage := 7 } : Params).Legal := by decide
theorem witness_ResetStepReplacesState :
    ({ flight .enc keyed with schedule := [.reset true] } : State).schedule = .reset true :: [] ∧
    ({ keyed with rst := true, schedule := [.host (.read 0x00C .word)] } : State).rst = true ∧
    ({ keyed with rst := true, schedule := [.host (.read 0x00C .word)] } : State).schedule =
      .host (.read 0x00C .word) :: [] ∧
    windowOffset keyed.params (Access.read 0x00C .word).addr = some 0x00C := by decide +kernel

/-! ## Witnesses: the cipher -/

theorem witness_ScheduleRecurrence : 8 ≤ 8 ∧ 8 < 60 ∧ 8 % 8 = 0 ∧ 12 % 8 = 4 ∧ 59 % 8 ≠ 0 ∧ 59 % 8 ≠ 4 ∧ 59 < 60 := by
  decide
theorem witness_BlockRoundTrip_StepCommandsEqualWholeCipher :
    Idle keyed ∧ keyed.params.hasDec = true ∧ keyed.keyValid = true := by decide

/-! ## Witnesses: the commands -/

/-- `IssuedAs`: a busy block, and for each word another word with the same opcode. -/
theorem witness_IssuedAs :
    (flight .enc keyed).agent = .host ∧ (flight .enc keyed).busy = true ∧ keyed.agent = .host ∧ keyed.busy = false ∧
    ∀ w ∈ ([0x00, 0x01, 0x02, 0x03, 0x04, 0x10, 0x11, 0x12, 0x13, 0x15, 0x19, 0x1A, 0x1B, 0x20] : List Word),
      (w + 0x100).extractLsb' 0 8 = w.extractLsb' 0 8 ∧ w + 0x100 ≠ w := by
  refine ⟨rfl, rfl, rfl, rfl, ?_⟩
  simp

/-- The issue clauses of ENC, DEC, ADD_RK and the inverse steps: key valid and not, inverse present and not. -/
theorem witness_command_issue :
    (keyed.agent = .host ∧ keyed.busy = false ∧ keyed.keyValid = true ∧ keyed.params.hasDec = true) ∧
    (State.reset.agent = .host ∧ State.reset.busy = false ∧ State.reset.keyValid = false ∧
      State.reset.params.hasDec = true) ∧
    (noDec.agent = .host ∧ noDec.busy = false ∧ noDec.params.hasDec = false) ∧
    (0#8).toNat ≤ 14 ∧ (14#8).toNat ≤ 14 ∧
    (0x00000F14#32).extractLsb' 0 8 = 0x14 ∧ 14 < ((0x00000F14#32).extractLsb' 8 8).toNat ∧
    (0x00010014#32).extractLsb' 16 16 ≠ 0 := by decide

/-- The completion clauses, with the examples' operands. -/
theorem witness_command_completion :
    (seqOf keyed).agent = .sequencer ∧
    (seqOf { State.reset with key := keyA3 }).key = keyA3 ∧
    (∃ t, exec .keyexp (seqOf keyed) = .next t) ∧
    (seqOf { State.reset with st := blockX }).st = blockX ∧ State.reset.st = #v[0, 0, 0, 0] ∧
    (seqOf { State.reset with st := subBytes blockX }).st = subBytes blockX ∧
    (#v[0, 0, 0x01010101, 0xc6c6c6c6] : Columns)[(3 : Fin 4)] = word 0xc6 0xc6 0xc6 0xc6 :=
  ⟨rfl, rfl, exec_next _ _, rfl, rfl, rfl, by decide⟩

/-- ZEROIZE's last clause: the elements that do not exist hold 0, with a key and operands in the others. -/
theorem witness_ZeroizeCommand :
    (seqOf { keyed with mod := int1 5 }).agent = .sequencer ∧ keyed.err = false ∧ keyed.errCode = .none ∧
    keyed.params.hasDec = true ∧ keyed.params.Legal ∧
    ∀ i : Fin 128, keyed.params.mxWords ≤ i.val →
      keyed.base[i] = 0 ∧ keyed.exp[i] = 0 ∧ (int1 5)[i] = 0 ∧ keyed.res[i] = 0 := by decide +kernel

/-- MODEXP: operands of the example, and a zero modulus. -/
theorem witness_ModexpCommand :
    (seqOf (mx 2 6 23)).agent = .sequencer ∧ (mx 2 6 23).params.Legal ∧ intOf (mx 2 6 23).mod 64 = 23 ∧
    intOf (mx 2 6 23).base 64 = 2 ∧ intOf (mx 2 6 23).exp 64 = 6 ∧ (mx 2 6 23).params.mxWords = 64 ∧
    (mx 2 6 23).busy = false ∧ (mx 2 6 23).agent = .host ∧ intOf State.reset.mod 64 = 0 ∧ 63 < 64 := by decide +kernel

/-! ## Witnesses: modular exponentiation -/

theorem witness_PowModIsExactPower : 1 ≤ 1 ∧ 0 < 2 ^ 0 ∧ 2 ^ 32 - 1 < 2 ^ 32 := by decide
theorem witness_PowModCornerCases :
    0 < 2 ^ 0 ∧ 2 ≤ 2 ∧ 1 ≤ 1 ∧ 1 < 2 ^ 1 ∧ 13 % 13 = 0 ∧ (mx 2 6 0).modInt = 0 ∧ (mx 2 6 0).busy = false := by
  decide +kernel

/-- P3's exchange: p = 23, g = 2, a = 6, b = 15, with the first results A = 18 and B = 16 in RES. -/
theorem witness_KeyAgreementIsSymmetric :
    ∃ s1 s2 s3 s4 t1 t2 t3 t4 : State,
      exec .modexp s1 = .next t1 ∧ exec .modexp s2 = .next t2 ∧
      exec .modexp s3 = .next t3 ∧ exec .modexp s4 = .next t4 ∧
      s1.agent = .sequencer ∧ s2.agent = .sequencer ∧ s3.agent = .sequencer ∧ s4.agent = .sequencer ∧
      s1.params.Legal ∧ s2.params = s1.params ∧ s3.params = s1.params ∧ s4.params = s1.params ∧
      s1.modInt ≠ 0 ∧ s2.modInt = s1.modInt ∧ s3.modInt = s1.modInt ∧ s4.modInt = s1.modInt ∧
      s2.baseInt = s1.baseInt ∧
      s3.baseInt = intOf t1.res s1.params.mxWords ∧ s3.expInt = s2.expInt ∧
      s4.baseInt = intOf t2.res s1.params.mxWords ∧ s4.expInt = s1.expInt ∧
      t1.res[0] = 18 ∧ t2.res[0] = 16 ∧ t3.res[0] = 4 :=
  ⟨seqOf (mx 2 6 23), seqOf (mx 2 15 23), seqOf (mx 18 15 23), seqOf (mx 16 6 23), _, _, _, _, exec_sequencer _ rfl, exec_sequencer _ rfl,
    exec_sequencer _ rfl, exec_sequencer _ rfl,
    by decide +kernel⟩

/-! ## Witnesses: the whole machine -/

theorem witness_CompletionWriteSets : (seqOf keyed).agent = .sequencer ∧ Instr.enc ≠ .nop ∧ Instr.modexp ≠ .nop := by
  decide

/-- The invariant holds in a state with a command in flight, a valid key and scheduled turns, and the state steps. -/
theorem witness_Invariant :
    Invariant { flight .enc keyed with schedule := [.host (.read 0x00C .word), .sequencer] } where
  legalBuild := by decide
  betweenSteps := rfl
  pendingIffBusy := rfl
  pendingReady := by
    intro i h
    obtain rfl : Instr.enc = i := Option.some.inj h
    exact ⟨by decide, rfl, by decide, fun _ => rfl, by decide, by decide⟩
  busyNotDone := fun _ => rfl
  errHasCode := by decide
  keyValidExpanded := fun _ => rfl
  unimplementedZero := by decide +kernel
  resetHolds := by intro h; cases h

theorem witness_StepKeepsInvariant_InvariantMeansSafe_AcceptedCommandCompletes :
    (∃ t, step { flight .enc keyed with schedule := [.host (.read 0x00C .word), .sequencer] } = .next t ∧
      t.busy = true ∧ t.schedule = [.sequencer]) ∧
    (flight .enc keyed).busy = true ∧ (flight .enc keyed).rst = false ∧
    (∀ b, Turn.reset b ∉ [.host (.read 0x00C .word), .sequencer]) :=
  ⟨⟨_, rfl, rfl, rfl⟩, rfl, rfl, by simp⟩

/-- A WAIT before the host on a busy block that meets the invariant (`witness_Invariant`), and on an idle one. -/
theorem witness_AcceptedCommandCompletes_wait :
    (HostRun.start { flight .enc keyed with schedule := [.host (.read 0x00C .word), .sequencer] } [.wait, .rd .status]).todo =
      .waitIdle :: [.read 0x00C] ∧
    (flight .enc keyed).busy = true ∧ (flight .enc keyed).rst = false ∧
    (HostRun.start keyed [.wait]).todo = .waitIdle :: [] ∧ keyed.busy = false ∧ keyed.rst = false := by decide +kernel

/-- A step in flight that leaves the command in flight: a refused write to DIN. -/
theorem witness_OperandsStableInFlight :
    (onAccess (flight .enc keyed) (.write 0x06C .word 1)).map (fun t => (t.busy, t.err)) = some (true, true) := by
  decide +kernel

/-- `rst` asserted, and an access the platform must not make. -/
def heldInReset : State := { State.reset with rst := true, schedule := [.host (.read 0x000 .word)] }

/-- A refused step from a state that meets the invariant. -/
theorem witness_InvariantMeansSafe_refusal :
    Invariant heldInReset ∧ step heldInReset = .refused .accessDuringReset where
  left :=
    { legalBuild := by decide
      betweenSteps := rfl
      pendingIffBusy := rfl
      pendingReady := by intro i h; cases h
      busyNotDone := by intro h; cases h
      errHasCode := by decide
      keyValidExpanded := by intro h; cases h
      unimplementedZero := by decide +kernel
      resetHolds := fun _ => rfl }
  right := rfl

end Sys2Proof.Tests
end

section
/-! What a step does to the registers, said once: the inversion of a register write and of a whole step, with each
write tied to the offset its register stands at (R72). -/

namespace Sys2Proof.Machine

open Sys2Proof Sys2Proof.Claim

/-! ### Addresses -/

/-- An address inside the window is BASE_ADDR plus its offset (R70). -/
theorem addr_of_windowOffset {p : Params} {addr : Nat} {off : BitVec 12} (h : windowOffset p addr = some off) :
    addr = p.baseAddr + off.toNat := by
  simp only [windowOffset] at h
  split at h
  next hin =>
    obtain rfl := Option.some.inj h
    simp only [BitVec.toNat_ofNat]
    omega
  next => cases h

/-- The only aligned offset at which a named register is found is its own (R72). -/
theorem toNat_of_locate {off : BitVec 12} {r : Reg} {o : Nat} (ha : off.toNat % 4 = 0) (hl : locate off = r)
    (ho : offsetOf r = some o) : off.toNat = o := by
  obtain ⟨k, hk, hoff⟩ := aligned_offset ha
  have hs := standsAt_locate k
  rw [← hk, hl] at hs
  cases r <;> simp [offsetOf, StandsAt, cmdOffset] at ho hs <;> omega

/-- A named register stands at an aligned offset of the window (R72). -/
theorem offsetOf_aligned {r : Reg} {o : Nat} (h : offsetOf r = some o) : o < 0x1000 ∧ o % 4 = 0 := by
  cases r <;> simp [offsetOf, cmdOffset] at h <;> omega

/-- A 4-byte write at the offset of a named register is a write of that register, answered OKAY (R74). -/
theorem accessAt_write {r : Reg} {o : Nat} (h : offsetOf r = some o) (addr : Nat) (v : Word) (s : State) :
    accessAt (BitVec.ofNat 12 o) (.write addr .word v) s = writeReg r v (s.respond .okay) := by
  obtain ⟨hlt, hal⟩ := offsetOf_aligned h
  have hl : LegalAccess .word (BitVec.ofNat 12 o) := ⟨rfl, by simp only [BitVec.toNat_ofNat]; omega⟩
  simp only [accessAt, if_pos hl, locate_offsetOf h]

/-- With `rst` released, the step of a host access inside the window is that access (R71, R294). -/
theorem step_access {s : State} {a : Access} {rest : List Turn} {off : BitVec 12} (hr : s.rst = false)
    (hs : s.schedule = .host a :: rest) (hw : windowOffset s.params a.addr = some off) :
    step s = accessAt off a { s with schedule := rest, agent := .host } := by
  simp [step, hs, takeTurn, hostTurn, hw, hr]

/-! ### One register write -/

/-- Everything a legal write of a word to a register can do in the host's hands (R74, R262). -/
inductive WriteCase (s : State) : Reg → Word → State → Prop where
  /-- Nothing: a register that is not writable, an element that does not exist, or NOP issued. -/
  | ignored (r : Reg) (v : Word) : WriteCase s r v s
  | ctrl (v : Word) : WriteCase s .ctrl v (s.writeCtrl v)
  | status (v : Word) : WriteCase s .status v (s.writeStatus v)
  /-- A command word or an operand write is refused. -/
  | error (r : Reg) (v : Word) (e : ErrCode) (he : e ≠ .none) : WriteCase s r v (s.raiseError e)
  /-- A command is accepted. -/
  | accept (v : Word) (i : Instr) (hd : decode v = .command i) (hn : i ≠ .nop) (hi : issueError i s = none) :
    WriteCase s .cmd v (s.accept i)
  | key (i : Fin 8) (v : Word) (hb : s.busy = false) :
    WriteCase s (.key i) v { s with key := s.key.set i v, keyValid := false }
  | din (i : Fin 4) (v : Word) (hb : s.busy = false) : WriteCase s (.din i) v { s with din := s.din.set i v }
  | base (i : Fin 128) (v : Word) (hb : s.busy = false) (hx : i.val < s.params.mxWords) :
    WriteCase s (.base i) v { s with base := s.base.set i v }
  | exp (i : Fin 128) (v : Word) (hb : s.busy = false) (hx : i.val < s.params.mxWords) :
    WriteCase s (.exp i) v { s with exp := s.exp.set i v }
  | mod (i : Fin 128) (v : Word) (hb : s.busy = false) (hx : i.val < s.params.mxWords) :
    WriteCase s (.mod i) v { s with mod := s.mod.set i v }

/-- An operand write is refused with E_BUSY, or, on an idle block, done (R299). -/
theorem writeCase_writeOperand {s : State} {r : Reg} {v : Word} {store : State → State}
    (h : s.busy = false → WriteCase s r v (store s)) : WriteCase s r v (writeOperand store s) := by
  unfold writeOperand
  split
  next => exact .error r v .busy (by simp)
  next hb => exact h (by simpa using hb)

/-- A write to an element that does not exist is ignored (R44). -/
theorem writeCase_writeElem {s : State} {r : Reg} {v : Word} {i : Fin 128} {store : State → State}
    (h : s.busy = false → i.val < s.params.mxWords → WriteCase s r v (store s)) :
    WriteCase s r v (writeElem i store s) := by
  unfold writeElem
  split
  next hx => exact writeCase_writeOperand fun hb => h hb hx
  next => exact .ignored r v

/-- Issuing a command is an error record, nothing, or its acceptance (R262). -/
theorem writeCase_issued {s : State} {v : Word} {i : Instr} (hd : decode v = .command i) :
    WriteCase s .cmd v (issued i s) := by
  unfold issued
  split
  next e he => exact .error _ v e (issueError_ne_none_code he)
  next hi =>
    split
    next => exact .ignored _ v
    next hn => exact .accept v i hd hn hi

/-- The inversion of a register write. -/
theorem writeReg_cases {s t : State} {r : Reg} {v : Word} (ha : s.agent = .host) (h : writeReg r v s = .next t) :
    WriteCase s r v t := by
  cases r with
  | cmd =>
    simp only [writeReg, issueWord_host v ha, Host.Outcome.next.injEq] at h
    subst h
    split
    next i hd => exact writeCase_issued hd
    next => exact .error _ v _ (by split <;> simp)
  | ctrl => cases h; exact .ctrl v
  | status => cases h; exact .status v
  | key i => cases h; exact writeCase_writeOperand (.key i v)
  | din i => cases h; exact writeCase_writeOperand (.din i v)
  | base i => cases h; exact writeCase_writeElem (.base i v)
  | exp i => cases h; exact writeCase_writeElem (.exp i v)
  | mod i => cases h; exact writeCase_writeElem (.mod i v)
  | id | cfg | dout | st | rk | res | reserved => cases h; exact .ignored _ v

/-! ### One step -/

/-- The state in which a host access answered by `r` acts: the turn taken, the host as agent, the bus answering. -/
def State.answering (s : State) (rest : List Turn) (r : Response) : State :=
  { s with schedule := rest, agent := .host, resp := some r }

/-- Everything a step that goes on can do. -/
inductive StepEffect (s t : State) : Prop where
  /-- The whole block takes its reset value (R291). -/
  | reset (b : Bool) (rest : List Turn) (hs : ResetsNext s) (ht : t = resetTurn b { s with schedule := rest })
  /-- The pending command completes (R297). -/
  | complete (rest : List Turn) (i : Instr) (hs : SequencersTurn s rest) (hb : s.busy = true)
    (hi : s.pending = some i)
    (ht : t = (completionEffect i { s with schedule := rest, agent := .sequencer }).finish)
  /-- The turn passes: an idle block's sequencer (R278), or an access outside the window (R70). -/
  | pass (rest : List Turn) (ht : t = { s with schedule := rest })
  /-- A read, or a bus error: only the bus answers (R73, R76). -/
  | answer (rest : List Turn) (r : Response) (hr : s.rst = false) (ht : t = s.answering rest r)
  /-- A legal write of `v` to register `r`. -/
  | write (rest : List Turn) (r : Reg) (v : Word) (hr : s.rst = false)
    (hw : ∀ o, offsetOf r = some o → HostWrites s o v) (hc : WriteCase (s.answering rest .okay) r v t)

/-- The inversion of `step` down to the register it writes. -/
theorem step_effect {s t : State} (h : step s = .next t) : StepEffect s t := by
  cases step_cases h with
  | reset b rest hs ht => exact .reset b rest ⟨b, rest, hs⟩ ht
  | complete rest i hs hb hi ht => exact .complete rest i hs hb hi ht
  | idle rest _ _ ht | outside _ rest _ _ ht => exact .pass rest ht
  | access a rest off hs hw hr ht =>
    have haddr := addr_of_windowOffset hw
    cases a with
    | read addr size =>
      simp only [accessAt] at ht
      split at ht <;> cases ht <;> exact .answer rest _ hr rfl
    | write addr size v =>
      simp only [accessAt] at ht
      split at ht
      next hl =>
        obtain ⟨rfl, hal⟩ := hl
        refine .write rest (locate off) v hr (fun o ho => ⟨rest, ?_⟩) (writeReg_cases rfl ht)
        rw [hs, ← toNat_of_locate hal rfl ho, ← haddr]
        rfl
      next => cases ht; exact .answer rest .busError hr rfl

/-- No step changes the build's parameters (R32). -/
theorem step_params {s t : State} (h : step s = .next t) : t.params = s.params := by
  cases step_effect h with
  | reset _ _ _ ht | complete _ _ _ _ _ ht | pass _ ht | answer _ _ _ ht =>
    subst ht; simp [resetTurn, State.resetWith, State.answering]
  | write _ _ _ _ _ hc => cases hc <;> rfl

end Sys2Proof.Machine
end

section
/-! The write sets of completions (R49), and what the clauses of the invariant need of each update. -/

namespace Sys2Proof.Machine

open Sys2Proof Sys2Proof.Claim

/-! ### The rows of the write-set table -/

section

variable (i : Instr) (s : State)

theorem completionEffect_keyValid : (completionEffect i s).keyValid =
    if i = .keyexp then true else if i = .zeroize then false else s.keyValid := by
  cases i <;> simp [completionEffect, clearSecrets]

theorem completionEffect_rk : (completionEffect i s).rk = s.rk ∨ i = .keyexp ∨ i = .zeroize := by
  cases i <;> simp [completionEffect]

theorem completionEffect_res : (completionEffect i s).res = s.res ∨ i = .modexp ∨ i = .zeroize := by
  cases i <;> simp [completionEffect]

theorem completionEffect_dout :
    (completionEffect i s).dout = s.dout ∨ i ∈ [.enc, .dec, .stStore, .zeroize] := by
  cases i <;> simp [completionEffect]

theorem completionEffect_st :
    (completionEffect i s).st = s.st ∨ (i ≠ .nop ∧ i ≠ .keyexp ∧ i ≠ .stStore ∧ i ≠ .modexp) := by
  cases i <;> simp [completionEffect]

/-- Only ZEROIZE writes an operand. -/
theorem completionEffect_operands :
    ((completionEffect i s).key = s.key ∧ (completionEffect i s).din = s.din ∧
      (completionEffect i s).base = s.base ∧ (completionEffect i s).exp = s.exp ∧
      (completionEffect i s).mod = s.mod) ∨ i = .zeroize := by
  cases i <;> simp [completionEffect]

end

/-- ENC and DEC leave their result in STATE and DOUT alike (R42). -/
theorem completionEffect_st_eq_dout {i : Instr} (h : i = .enc ∨ i = .dec) (s : State) :
    (completionEffect i s).st = (completionEffect i s).dout := by
  obtain rfl | rfl := h <;> rfl

/-! ### The invariant, update by update -/

/-- An element that does not exist stays as it is under `setInt`. -/
theorem setInt_getElem_of_le {n : Nat} {i : Fin 128} (h : n ≤ i.val) (v : Vector Word 128) (x : Nat) :
    (setInt n v x)[i] = v[i] := by
  rw [setInt_getElem, if_neg (Nat.not_lt.mpr h)]

/-- Writing an element that exists leaves the elements that do not. -/
theorem set_getElem_of_le {n : Nat} {i j : Fin 128} (hi : i.val < n) (hj : n ≤ j.val) (vec : Vector Word 128)
    (v : Word) : (vec.set i v)[j] = vec[j] :=
  Vector.getElem_set_ne _ _ (by omega)

/-- No completion writes an element that does not exist (log 13). -/
theorem completionEffect_unimplemented (i : Instr) {s : State} {j : Fin 128} (h : s.params.mxWords ≤ j.val) :
    (completionEffect i s).base[j] = s.base[j] ∧ (completionEffect i s).exp[j] = s.exp[j] ∧
      (completionEffect i s).mod[j] = s.mod[j] ∧ (completionEffect i s).res[j] = s.res[j] := by
  cases i with
  | zeroize => simp only [completionEffect, clearSecrets, setInt_getElem_of_le h, and_self]
  | modexp => simp only [completionEffect, setInt_getElem_of_le h, and_self]
  | _ => simp only [completionEffect, and_self]

/-- KEY_VALID says that RK is the schedule of KEY after a completion too (R38). -/
theorem completionEffect_expanded (i : Instr) {s : State} (h : s.keyValid = true → s.rk = expand s.key) :
    (completionEffect i s).keyValid = true → (completionEffect i s).rk = expand (completionEffect i s).key := by
  cases i with
  | keyexp => intro _; simp only [completionEffect]
  | zeroize => exact fun hk => nomatch hk
  | _ => simpa only [completionEffect] using h

/-- Reset meets the invariant, in every legal build. -/
theorem invariant_resetWith {p : Params} (h : p.Legal) : Invariant (State.resetWith p) where
  legalBuild := h
  betweenSteps := rfl
  pendingIffBusy := rfl
  pendingReady := fun _ hi => nomatch hi
  busyNotDone := fun _ => rfl
  errHasCode := iff_of_true rfl rfl
  keyValidExpanded := fun hk => nomatch hk
  unimplementedZero := fun _ _ => by simp [State.resetWith]
  resetHolds := fun hr => nomatch hr

/-- An accepted command may run. -/
theorem ready_accept {s : State} {i : Instr} (hn : i ≠ .nop) (hi : issueError i s = none) :
    Ready (s.accept i) i := by
  obtain ⟨-, hwf, hinv, hkey, hmod⟩ := issueError_eq_none hi
  exact
    { notNop := hn
      wellFormed := hwf
      hasInverse := hinv
      keyed := fun hk => by
        have hne : i ≠ .keyexp := by rintro rfl; cases hk
        simpa [hne] using hkey hk
      modulus := hmod
      keyexpClears := fun he => by simp [he] }

namespace Invariant

variable {s : State}

/-- A reset turn keeps the invariant, at either level of `rst` (R290). -/
theorem of_resetTurn (h : Invariant s) (b : Bool) (rest : List Turn) :
    Invariant (resetTurn b { s with schedule := rest }) :=
  { invariant_resetWith h.legalBuild with
    pendingReady := fun _ hi => nomatch hi
    resetHolds := by rintro rfl; rfl }

/-- Nothing of the invariant speaks of the turns to come. -/
theorem of_schedule (h : Invariant s) (rest : List Turn) : Invariant { s with schedule := rest } :=
  { h with
    pendingReady := fun i hi => { h.pendingReady i hi with }
    resetHolds := fun hr => by rw [h.resetHolds hr]; rfl }

/-- A block in flight is not in reset. -/
theorem rst_of_busy (h : Invariant s) (hb : s.busy = true) : s.rst = false := by
  by_contra hr
  rw [h.resetHolds (by simpa using hr)] at hb
  cases hb

/-- An idle block has no command pending. -/
theorem pending_of_idle (h : Invariant s) (hb : s.busy = false) : s.pending = none := by
  simpa [hb] using h.pendingIffBusy

/-- A completion keeps the invariant: it leaves an idle block outside reset (R297). -/
theorem of_complete (h : Invariant s) (hb : s.busy = true) (rest : List Turn) (i : Instr) :
    Invariant (completionEffect i { s with schedule := rest, agent := .sequencer }).finish where
  legalBuild := by simpa using h.legalBuild
  betweenSteps := rfl
  pendingIffBusy := rfl
  pendingReady := fun _ hi => nomatch hi
  busyNotDone := fun hb' => nomatch hb'
  errHasCode := by simpa using h.errHasCode
  keyValidExpanded := completionEffect_expanded i h.keyValidExpanded
  unimplementedZero := fun j hj => by
    replace hj : s.params.mxWords ≤ j.val := by simpa using hj
    obtain ⟨hbase, hexp, hmod, hres⟩ :=
      completionEffect_unimplemented i (s := { s with schedule := rest, agent := .sequencer }) hj
    simpa only [State.finish_base, State.finish_exp, State.finish_mod, State.finish_res, hbase, hexp, hmod, hres]
      using h.unimplementedZero j hj
  resetHolds := fun hr => by
    have := h.rst_of_busy hb
    simp_all

/-- Outside reset, neither the turns to come nor the bus answer matter. -/
theorem of_answering (h : Invariant s) (hr : s.rst = false) (rest : List Turn) (r : Response) :
    Invariant (s.answering rest r) :=
  { h with
    betweenSteps := rfl
    pendingReady := fun i hi => { h.pendingReady i hi with }
    resetHolds := fun hr' => absurd hr' (by simp [State.answering, hr]) }

/-- Outside reset the flags may change, as long as DONE stays 0 in flight and ERR_CODE follows ERR. -/
theorem of_flags (h : Invariant s) (hr : s.rst = false) {irqEn done err : Bool} {errCode : ErrCode}
    (hd : s.busy = true → done = false) (he : err = false ↔ errCode = .none) :
    Invariant { s with irqEn := irqEn, done := done, err := err, errCode := errCode } :=
  { h with
    pendingReady := fun i hi => { h.pendingReady i hi with }
    busyNotDone := hd
    errHasCode := he
    resetHolds := fun hr' => absurd hr' (by simp [hr]) }

/-- On an idle block the operands may change, as long as KEY_VALID stays true to KEY and the elements that do not
exist stay 0. -/
theorem of_operands (h : Invariant s) (hr : s.rst = false) (hb : s.busy = false) {keyValid : Bool}
    {key : Vector Word 8} {din : Vector Word 4} {base exp mod : Vector Word 128}
    (hk : keyValid = true → s.rk = expand key)
    (hz : ∀ i : Fin 128, s.params.mxWords ≤ i.val → base[i] = s.base[i] ∧ exp[i] = s.exp[i] ∧ mod[i] = s.mod[i]) :
    Invariant { s with keyValid := keyValid, key := key, din := din, base := base, exp := exp, mod := mod } :=
  { h with
    pendingReady := fun i hi => absurd hi (by simp [h.pending_of_idle hb])
    keyValidExpanded := hk
    unimplementedZero := fun i hi => by
      obtain ⟨hbase, hexp, hmod⟩ := hz i hi
      simpa only [hbase, hexp, hmod] using h.unimplementedZero i hi
    resetHolds := fun hr' => absurd hr' (by simp [hr]) }

/-- Acceptance keeps the invariant (R36). -/
theorem of_accept (h : Invariant s) (hr : s.rst = false) {i : Instr} (hn : i ≠ .nop) (hi : issueError i s = none) :
    Invariant (s.accept i) :=
  { h with
    pendingIffBusy := rfl
    pendingReady := fun _ hj => Option.some.inj hj ▸ ready_accept hn hi
    busyNotDone := fun _ => rfl
    keyValidExpanded := fun hk => h.keyValidExpanded (by
      rw [State.accept_keyValid] at hk
      split at hk
      · cases hk
      · exact hk)
    resetHolds := fun hr' => absurd hr' (by simp [hr]) }

/-- A register write outside reset keeps the invariant. -/
theorem of_write (h : Invariant s) (hr : s.rst = false) {t : State} {r : Reg} {v : Word} (hc : WriteCase s r v t) :
    Invariant t := by
  cases hc with
  | ignored => exact h
  | ctrl => exact h.of_flags hr h.busyNotDone h.errHasCode
  | status =>
    refine h.of_flags hr (fun hb => by simp [h.busyNotDone hb]) ?_
    cases v.getLsbD 3 <;> simp [h.errHasCode]
  | error _ _ e he =>
    refine h.of_flags hr h.busyNotDone ?_
    cases herr : s.err <;> simp [he, ← h.errHasCode, herr]
  | accept _ i _ hn hi => exact h.of_accept hr hn hi
  | key _ _ hb => exact h.of_operands hr hb (fun hk => nomatch hk) fun _ _ => ⟨rfl, rfl, rfl⟩
  | din _ _ hb => exact h.of_operands hr hb h.keyValidExpanded fun _ _ => ⟨rfl, rfl, rfl⟩
  | base _ _ hb hx =>
    exact h.of_operands hr hb h.keyValidExpanded fun _ hj => ⟨set_getElem_of_le hx hj _ _, rfl, rfl⟩
  | exp _ _ hb hx =>
    exact h.of_operands hr hb h.keyValidExpanded fun _ hj => ⟨rfl, set_getElem_of_le hx hj _ _, rfl⟩
  | mod _ _ hb hx =>
    exact h.of_operands hr hb h.keyValidExpanded fun _ hj => ⟨rfl, rfl, set_getElem_of_le hx hj _ _⟩

/-- Every step keeps the invariant. -/
theorem of_step {t : State} (h : Invariant s) (hs : step s = .next t) : Invariant t := by
  cases step_effect hs with
  | reset b rest _ ht => exact ht ▸ h.of_resetTurn b rest
  | complete rest i _ hb _ ht => exact ht ▸ h.of_complete hb rest i
  | pass rest ht => exact ht ▸ h.of_schedule rest
  | answer rest r hr ht => exact ht ▸ h.of_answering hr rest r
  | write rest r v hr _ hc => exact (h.of_answering hr rest .okay).of_write hr hc

end Invariant

end Sys2Proof.Machine
end

section
/-! The statements of the block's state. -/

namespace Sys2Proof.Claim

open Sys2Proof Sys2Proof.Machine

/-! ### The invariant -/

/-- Settles O57, by the inversion of a step down to the register it writes. -/
theorem stepKeepsInvariant : Obligations.StepKeepsInvariant := fun _ _ h hs => h.of_step hs

/-- Settles O56, by the invariant of reset in any legal build. -/
theorem resetMeetsInvariant : Obligations.ResetMeetsInvariant :=
  ⟨fun _ => invariant_resetWith, invariant_resetWith (by decide)⟩

/-- The sequencer's turn stops only where `busy = 1` with nothing pending (log 8). -/
theorem sequencerTurn_next {s : State} (h : s.pending.isSome = s.busy) : ∃ t, sequencerTurn s = .next t := by
  unfold sequencerTurn
  split
  next hb =>
    split
    next i _ => exact exec_next i _
    next hp => simp [hp, hb] at h
  next => exact ⟨s, rfl⟩

/-- From the invariant a step goes on, or is a host access refused under reset (R291). -/
theorem step_next_or_refused {s : State} (h : Invariant s) :
    (∃ t, step s = .next t) ∨
      (step s = .refused .accessDuringReset ∧ s.rst = true ∧ ∃ a rest, s.schedule = .host a :: rest) := by
  cases hsch : s.schedule with
  | nil =>
    obtain ⟨t, ht⟩ := sequencerTurn_next h.pendingIffBusy
    exact .inl ⟨t, by simpa only [step, hsch] using ht⟩
  | cons turn rest =>
    simp only [step, hsch]
    cases turn with
    | reset b => exact .inl ⟨_, rfl⟩
    | sequencer => exact .inl (sequencerTurn_next (h.of_schedule rest).pendingIffBusy)
    | host a =>
      simp only [takeTurn, hostTurn]
      split
      next => exact .inl ⟨_, rfl⟩
      next off _ =>
        split
        next hr => exact .inr ⟨rfl, hr, a, rest, rfl⟩
        next => exact .inl (accessAt_next off a _)

/-- No run from the invariant faults. -/
theorem safeRun_of_invariant {s : State} (h : Invariant s) : SafeRun s := by
  intro n r
  induction n generalizing s with
  | zero => exact fun hf => nomatch hf
  | succ n ih =>
    have hstep : core.step s = step s := rfl
    obtain ⟨t, ht⟩ | ⟨hr, -⟩ := step_next_or_refused h
    · simpa only [Host.Core.run, hstep, ht] using ih (h.of_step ht)
    · simp [Host.Core.run, hstep, hr]

/-- Settles O58: every step from the invariant goes on to the invariant or is the refusal of R291. -/
theorem invariantMeansSafe : Obligations.InvariantMeansSafe := by
  refine fun s h => ⟨safeRun_of_invariant h, fun r hs => ?_⟩
  obtain ⟨t, ht⟩ | ⟨hr, hrst, hturn⟩ := step_next_or_refused h
  · rw [ht] at hs; cases hs
  · rw [hr] at hs; cases hs
    exact ⟨rfl, hrst, hturn⟩

/-! ### Completions and registers -/

/-- A flag that a step leaves as it is neither rises nor falls. -/
theorem flag_kept {b c : Bool} {P : Prop} (h : b = c) (h' : b = !c) : P := by simp [h] at h'

/-- Settles O55, row by row. -/
theorem completionWriteSets : Obligations.CompletionWriteSets := by
  intro i s hs _
  refine ⟨_, exec_sequencer i hs, rfl, rfl, rfl, completionEffect_params i s, completionEffect_irqEn i s,
    completionEffect_err i s, completionEffect_errCode i s, completionEffect_rst i s, completionEffect_schedule i s,
    completionEffect_resp i s, fun hk hz => ⟨?_, ?_⟩, fun hm hz => ?_, fun hz => ?_, fun hi => ?_,
    fun he hd hst hz => ?_, fun h => completionEffect_st_eq_dout h s⟩
  · exact (completionEffect_rk i s).resolve_right (by simp [hk, hz])
  · simp [completionEffect_keyValid, hk, hz]
  · exact (completionEffect_res i s).resolve_right (by simp [hm, hz])
  · exact (completionEffect_operands i s).resolve_right hz
  · exact (completionEffect_st i s).resolve_right (by rintro ⟨-, h1, h2, h3⟩; simp [h1, h2, h3] at hi)
  · exact (completionEffect_dout i s).resolve_right (by simp [he, hd, hst, hz])

/-- Settles O59: only acceptance, a store on an idle block, a completion and a reset write these registers, and none of
them is a step of a block that stays busy. -/
theorem operandsStableInFlight : Obligations.OperandsStableInFlight := by
  intro s t hb hs hb'
  cases step_effect hs with
  | reset _ _ _ ht | complete _ _ _ _ _ ht => subst ht; cases hb'
  | pass _ ht | answer _ _ _ ht => subst ht; simp [State.answering]
  | write _ _ _ _ _ hc =>
    cases hc with
    | ignored | ctrl | status | error => simp [State.answering]
    | accept _ _ _ _ hi => exact flag_kept hb (issueError_eq_none hi).1
    | key _ _ hi | din _ _ hi | base _ _ hi | exp _ _ hi | mod _ _ hi => exact flag_kept hb hi

/-- Settles O19: a completion writes its row of the write-set table, a host's write stores the one element it
addresses, and no other step but a reset writes any of these registers. -/
theorem eachRegisterHasItsWriters : Obligations.EachRegisterHasItsWriters := by
  intro s t hs hreset
  cases step_effect hs with
  | reset _ _ h => exact absurd h hreset
  | complete rest i _ hb hi ht =>
    have hc : Completes s t := ⟨hb, by rw [ht]; rfl⟩
    subst ht
    refine ⟨(completionEffect_rk i _).imp_right fun h => ⟨hc, by simpa [hi] using h⟩,
      (completionEffect_res i _).imp_right fun h => ⟨hc, by simpa [hi] using h⟩,
      (completionEffect_dout i _).imp_right fun h => ⟨hc, i, hi, h⟩,
      (completionEffect_st i _).imp_right fun h => ⟨hc, i, hi, h⟩, ?_⟩
    obtain ⟨hkey, hdin, hbase, hexp, hmod⟩ | rfl :=
      completionEffect_operands i { s with schedule := rest, agent := .sequencer }
    · exact ⟨.inl hkey, .inl hdin, .inl hbase, .inl hexp, .inl hmod⟩
    · have hz := And.intro hc hi
      exact ⟨.inr (.inl hz), .inr (.inl hz), .inr (.inl hz), .inr (.inl hz), .inr (.inl hz)⟩
  | pass _ ht | answer _ _ _ ht => subst ht; simp [State.answering]
  | write _ _ _ _ hw hc =>
    cases hc with
    | ignored | ctrl | status | error | accept => simp [State.answering]
    | key i _ hb => simpa [State.answering] using .inr (.inr ⟨hb, i, _, hw _ rfl, rfl⟩)
    | din i _ hb => simpa [State.answering] using .inr (.inr ⟨hb, i, _, hw _ rfl, rfl⟩)
    | base i _ hb hx => simpa [State.answering] using .inr (.inr ⟨hb, i, hx, _, hw _ rfl, rfl⟩)
    | exp i _ hb hx => simpa [State.answering] using .inr (.inr ⟨hb, i, hx, _, hw _ rfl, rfl⟩)
    | mod i _ hb hx => simpa [State.answering] using .inr (.inr ⟨hb, i, hx, _, hw _ rfl, rfl⟩)

/-! ### Flags -/

/-- Settles O18, by what each kind of step does to the flags. -/
theorem flagsChangeOnlyAsTabled : Obligations.FlagsChangeOnlyAsTabled := by
  intro s t hs
  cases step_effect hs with
  | reset _ _ h ht => subst ht; simp [resetTurn, State.resetWith, h]
  | complete rest i hq hb hi ht =>
    have hc : Completes s t := ⟨hb, by rw [ht]; rfl⟩
    have hk : t.keyValid = if i = .keyexp then true else if i = .zeroize then false else s.keyValid := by
      rw [ht, State.finish_keyValid, completionEffect_keyValid]
    have herr : t.err = s.err ∧ t.errCode = s.errCode := by simp [ht]
    have hdone : t.done = true := by rw [ht]; rfl
    refine ⟨fun h _ => flag_kept hb h, fun _ _ => hq.symm.imp And.left fun h => .inl ⟨rest, h⟩, fun _ _ => hc,
      fun _ h => flag_kept hdone h, fun h h' => ⟨hc, ?_⟩, fun h h' => .inr (.inr (.inl ⟨hc, ?_⟩)),
      fun h h' => flag_kept (herr.1.trans h) h', fun h => absurd herr.2 h⟩
    · split_ifs at hk <;> simp_all
    · split_ifs at hk <;> simp_all
  | pass _ ht | answer _ _ _ ht => subst ht; simp +contextual [State.answering]
  | write rest _ v _ hw hc =>
    cases hc with
    | ignored | ctrl | din | base | exp | mod => simp +contextual [State.answering]
    | status =>
      refine ⟨flag_kept, flag_kept, ?_, fun h h' => .inl ⟨v, hw _ rfl, ?_⟩, flag_kept, flag_kept,
        fun h h' => .inl ⟨v, hw _ rfl, ?_⟩, fun hne => .inr ?_⟩
      · simp +contextual [State.answering]
      · simpa [State.answering, h] using h'
      · simpa [State.answering, h] using h'
      · have hv : v.getLsbD 3 = true := by
          by_contra hv
          exact hne (by rw [State.writeStatus_errCode, if_neg hv]; rfl)
        exact ⟨by rw [State.writeStatus_errCode, if_pos hv], .inl ⟨v, hw _ rfl, hv⟩⟩
    | error _ _ e =>
      refine ⟨flag_kept, flag_kept, flag_kept, flag_kept, flag_kept, flag_kept, fun _ h => (nomatch h),
        fun hne => .inl ⟨?_, rfl⟩⟩
      by_contra h
      simp [State.answering, h] at hne
    | accept _ i hd hn hi =>
      have hb : s.busy = false := (issueError_eq_none hi).1
      refine ⟨fun _ _ => ⟨v, i, hw _ rfl, hd, hn, rfl, rfl⟩, fun h => flag_kept hb h, fun _ h => (nomatch h),
        fun _ _ => .inr (.inl ⟨hb, rfl⟩), ?_, fun h h' => .inr (.inl ⟨hb, rfl, ?_⟩), flag_kept, fun h => absurd rfl h⟩
      · simp +contextual [State.answering]
      · by_contra hne
        simp_all [State.answering]
    | key i _ hb =>
      exact ⟨flag_kept, flag_kept, flag_kept, flag_kept, fun _ h => (nomatch h), fun _ _ => .inl ⟨hb, i, v, hw _ rfl⟩,
        flag_kept, fun h => absurd rfl h⟩

/-! ### Steps -/

/-- Settles O6: a write to CMD is an access like any other, and issues the word it writes. -/
theorem stepIssuesTheDecodedCommand : Obligations.StepIssuesTheDecodedCommand := by
  refine ⟨fun _ _ _ _ => step_access, fun p off => ?_, fun s rest v i hr hs hd => ?_⟩
  · rw [windowOffset_base_add p off.isLt, BitVec.ofNat_toNat, BitVec.setWidth_eq]
  · rw [step_access hr hs (windowOffset_base_add s.params (by decide)), accessAt_write (r := .cmd) (o := 0x010) rfl]
    simp only [writeReg, issueWord, hd]
    rfl

/-! ### Identification, control and reset values -/

/-- CFG holds MX_WORDS in its low byte (R32). -/
theorem cfgWord_mxWords (s : State) : s.cfgWord.extractLsb' 0 8 = BitVec.ofNat 8 s.params.mxWords :=
  (BitVec.extractLsb'_append_eq_of_add_le (by decide)).trans BitVec.extractLsb'_eq_self

/-- CFG holds HAS_DEC in bit 8 (R32). -/
theorem cfgWord_hasDec (s : State) : s.cfgWord.getLsbD 8 = s.params.hasDec := by
  simp only [State.cfgWord, BitVec.getLsbD_append]
  simp

/-- CFG is 0 above bit 8 (R32). -/
theorem cfgWord_zero (s : State) : s.cfgWord.extractLsb' 9 23 = 0 :=
  (BitVec.extractLsb'_append_eq_of_le (by decide)).trans
    ((BitVec.extractLsb'_append_eq_of_le (by decide)).trans BitVec.extractLsb'_eq_self)

/-- Settles O16: the two values are constants of the build, which no step changes. -/
theorem identificationIsConstant : Obligations.IdentificationIsConstant := by
  refine ⟨by decide, by decide, fun _ => rfl, fun s => ⟨cfgWord_mxWords s, cfgWord_hasDec s, cfgWord_zero s⟩,
    fun _ _ => ⟨rfl, rfl⟩, fun s t hs => ⟨rfl, ?_⟩⟩
  simp only [State.readReg, State.cfgWord, step_params hs]

/-- CTRL shows IRQ_EN in bit 0 (R33). -/
theorem ctrlWord_irqEn (s : State) : s.ctrlWord.getLsbD 0 = s.irqEn := by simp [State.ctrlWord]

/-- CTRL is 0 above bit 0 (R33). -/
theorem ctrlWord_zero (s : State) : s.ctrlWord.extractLsb' 1 31 = 0 := by
  ext i hi
  simp [State.ctrlWord]

/-- Settles O17, by the two fields of CTRL's word. -/
theorem ctrlKeepsIrqEnableOnly : Obligations.CtrlKeepsIrqEnableOnly :=
  ⟨by decide, fun _ _ => rfl, fun s => ⟨ctrlWord_irqEn s, ctrlWord_zero s⟩, fun _ => rfl, fun _ => rfl⟩

/-- Settles O24, register by register. -/
theorem resetValues : Obligations.ResetValues := by
  refine fun p _ => ⟨rfl, rfl, fun r hid hcfg => ?_, rfl, rfl, rfl, Params.testBuild, by decide, rfl⟩
  cases r with
  | id => exact absurd rfl hid
  | cfg => exact absurd rfl hcfg
  | ctrl | cmd | reserved => rfl
  | status => simp [State.readReg, State.statusWord, State.resetWith, ErrCode.bits]
  | key i | din i | dout i | st i | rk i => simp [State.readReg, State.resetWith]
  | base i | exp i | mod i | res i => simp [State.readReg, State.resetWith, readElem]

end Sys2Proof.Claim
end

section
/-! The register window, said once: what an access inside it is answered, and what a legal read or write at each
offset does (R71 to R76). -/

namespace Sys2Proof.Machine

open Sys2Proof Sys2Proof.Claim

/-! ### Legal accesses, offset by offset -/

/-- Nothing stands at a reserved offset (R72). -/
theorem locate_of_reservedOffset {off : Nat} (h : ReservedOffset off) : locate (BitVec.ofNat 12 off) = .reserved := by
  obtain ⟨hal, hin⟩ := h
  obtain ⟨k, rfl⟩ : ∃ k, off = 4 * k := ⟨off / 4, by omega⟩
  exact locate_reserved ⟨k, by omega⟩ (by dsimp only; omega)

/-- A 4-byte access at a multiple of 4 is legal. -/
theorem legalAccess_ofNat {off : Nat} (h : off % 4 = 0) : LegalAccess .word (BitVec.ofNat 12 off) :=
  ⟨rfl, by simp only [BitVec.toNat_ofNat]; omega⟩

/-- A legal read answers the value of the register that stands at its offset (R73). -/
theorem readsAs_of_locate {off : Nat} {r : Reg} (ha : off % 4 = 0) (hl : locate (BitVec.ofNat 12 off) = r)
    (s : State) : ReadsAs s off (s.readReg r) := by
  intro addr
  simp only [accessAt, if_pos (legalAccess_ofNat ha), hl, State.respond]

/-- A named register is read at its own offset (R73). -/
theorem readsAs_offsetOf {r : Reg} {o : Nat} (h : offsetOf r = some o) (s : State) : ReadsAs s o (s.readReg r) :=
  readsAs_of_locate (offsetOf_aligned h).2 (locate_offsetOf h) s

/-- A named register is written at its own offset, with the write answered OKAY (R74). -/
theorem writesAs_offsetOf {r : Reg} {o : Nat} (h : offsetOf r = some o) {s : State} {v : Word}
    {effect : State → State} (he : writeReg r v (s.respond .okay) = .next (effect (s.respond .okay))) :
    WritesAs s o v effect :=
  fun addr => (accessAt_write h addr v s).trans he

/-- A write at a reserved offset is answered OKAY and ignored (R74). -/
theorem writesAs_reserved {off : Nat} (h : ReservedOffset off) (s : State) (v : Word) : WritesAs s off v id := by
  intro addr
  simp only [accessAt, if_pos (legalAccess_ofNat h.1), locate_of_reservedOffset h, writeReg, State.respond, id]

/-! ### What the writable registers do -/

/-- CTRL's word is IRQ_EN, zero-extended (R33). -/
theorem ctrlWord_eq_ite (s : State) : s.ctrlWord = if s.irqEn = true then 1 else 0 := by
  cases h : s.irqEn <;> simp [State.ctrlWord, h]

/-- An error is recorded when none is, and is lost otherwise (R263). -/
theorem raiseError_eq_recorded (e : ErrCode) (s : State) : s.raiseError e = recorded e s := by
  unfold recorded State.raiseError
  split
  next h => simp [← h]
  next => rfl

/-- A write to STATUS clears DONE by bit 1, then ERR with its code by bit 3 (R74). -/
theorem writeStatus_eq_ite (v : Word) (s : State) :
    s.writeStatus v =
      let u := if v.getLsbD 1 = true then { s with done := false } else s
      if v.getLsbD 3 = true then { u with err := false, errCode := .none } else u := by
  unfold State.writeStatus
  generalize v.getLsbD 1 = clearDone, v.getLsbD 3 = clearErr
  cases clearDone <;> cases clearErr <;> simp

/-- An operand write is refused with E_BUSY, or done (R74). -/
theorem writeOperand_eq_ite (store : State → State) (s : State) :
    writeOperand store s = if s.busy = true then recorded .busy s else store s := by
  rw [writeOperand, raiseError_eq_recorded]

/-- A write to an element of BASE, EXP or MOD is ignored where the element does not exist, and otherwise an operand
write (R74). -/
theorem writeElem_eq_ite (i : Fin 128) (store : State → State) (s : State) :
    writeElem i store s =
      if s.params.mxWords ≤ i.val then s else if s.busy = true then recorded .busy s else store s := by
  simp only [writeElem, writeOperand_eq_ite, ← Nat.not_lt, ite_not]

/-! ### The bus answer -/

@[simp] theorem issued_resp (i : Instr) (s : State) : (issued i s).resp = s.resp := by
  unfold issued
  split
  next => rfl
  next => split <;> rfl

/-- Neither end of a command answers the bus. -/
theorem exec_keeps_resp {i : Instr} {s t : State} (h : exec i s = .next t) : t.resp = s.resp := by
  cases ha : s.agent with
  | host => rw [exec_host i ha] at h; cases h; exact issued_resp i s
  | sequencer => rw [exec_sequencer i ha] at h; cases h; simp

theorem issueWord_keeps_resp {v : Word} {s t : State} (h : issueWord v s = .next t) : t.resp = s.resp := by
  unfold issueWord at h
  split at h
  next => exact exec_keeps_resp h
  next => cases h; rfl

/-- An operand write, refused or done, keeps the bus answer when its store does. -/
theorem writeOperand_resp {store : State → State} {s : State} (h : (store s).resp = s.resp) :
    (writeOperand store s).resp = s.resp := by
  unfold writeOperand
  split
  next => rfl
  next => exact h

theorem writeElem_resp {i : Fin 128} {store : State → State} {s : State} (h : (store s).resp = s.resp) :
    (writeElem i store s).resp = s.resp := by
  unfold writeElem
  split
  next => exact writeOperand_resp h
  next => rfl

/-- A register write leaves the bus answer as it is. -/
theorem writeReg_keeps_resp {r : Reg} {v : Word} {s t : State} (h : writeReg r v s = .next t) : t.resp = s.resp := by
  cases r with
  | cmd => exact issueWord_keeps_resp h
  | key | din => cases h; exact writeOperand_resp rfl
  | base | exp | mod => cases h; exact writeElem_resp rfl
  | id | cfg | ctrl | status | dout | st | rk | res | reserved => cases h; rfl

/-- A legal read is answered with a value, any other with the bus error (R71). -/
theorem accessAt_read_resp {off : BitVec 12} {addr : Nat} {size : AccessSize} {s t : State}
    (h : accessAt off (.read addr size) s = .next t) :
    t.resp = some (if LegalAccess size off then .data (s.readReg (locate off)) else .busError) := by
  simp only [accessAt] at h
  split at h <;> cases h
  next hl => simp only [State.respond_resp, if_pos hl]
  next hl => simp only [State.respond_resp, if_neg hl]

/-- A legal write is answered OKAY, any other with the bus error (R71). -/
theorem accessAt_write_resp {off : BitVec 12} {addr : Nat} {size : AccessSize} {v : Word} {s t : State}
    (h : accessAt off (.write addr size v) s = .next t) :
    t.resp = some (if LegalAccess size off then .okay else .busError) := by
  simp only [accessAt] at h
  split at h
  next hl => rw [writeReg_keeps_resp h, if_pos hl, State.respond_resp]
  next hl => cases h; rw [if_neg hl, State.respond_resp]

/-- An illegal access is answered with the bus error and does nothing else (R76). -/
theorem accessAt_illegal {off : BitVec 12} {a : Access} {size : AccessSize}
    (ha : a = .read a.addr size ∨ ∃ v, a = .write a.addr size v) (hl : ¬ LegalAccess size off) (s : State) :
    accessAt off a s = .next (s.respond .busError) := by
  obtain ha | ⟨v, ha⟩ := ha
  · rw [ha]; exact if_neg hl
  · rw [ha]; exact if_neg hl

/-! ### Addresses outside the window -/

/-- An address below or above the window has no offset in it (R70). -/
theorem windowOffset_of_outside {p : Params} {addr : Nat} (h : addr < p.baseAddr ∨ p.baseAddr + 0xFFF < addr) :
    windowOffset p addr = none :=
  if_neg (by omega)

/-- The step of a host access outside the window only takes the turn (log 9). -/
theorem step_outside {s : State} {a : Access} {rest : List Turn} (hs : s.schedule = .host a :: rest)
    (hw : windowOffset s.params a.addr = none) : step s = .next { s with schedule := rest } := by
  simp only [step, hs, takeTurn, hostTurn, hw]

end Sys2Proof.Machine
end

section
/-! The statements of the register window. -/

namespace Sys2Proof.Claim

open Sys2Proof Sys2Proof.Machine

/-- Settles O12: each register is read at the offset it stands at. -/
theorem busReadMap : Obligations.BusReadMap := fun s =>
  ⟨readsAs_offsetOf (r := .id) rfl s, readsAs_offsetOf (r := .cfg) rfl s,
    ctrlWord_eq_ite s ▸ readsAs_offsetOf (r := .ctrl) rfl s, readsAs_offsetOf (r := .status) rfl s,
    readsAs_offsetOf (r := .cmd) rfl s, fun i => readsAs_offsetOf (r := .key i) rfl s,
    fun i => readsAs_offsetOf (r := .din i) rfl s, fun i => readsAs_offsetOf (r := .dout i) rfl s,
    fun i => readsAs_offsetOf (r := .st i) rfl s, fun i => readsAs_offsetOf (r := .rk i) rfl s,
    fun i => readsAs_offsetOf (r := .base i) rfl s, fun i => readsAs_offsetOf (r := .exp i) rfl s,
    fun i => readsAs_offsetOf (r := .mod i) rfl s, fun i => readsAs_offsetOf (r := .res i) rfl s,
    fun _ h => readsAs_of_locate h.1 (locate_of_reservedOffset h) s⟩

/-- Settles O13: each register is written at the offset it stands at, and does with the write what R74's row says. -/
theorem busWriteMap : Obligations.BusWriteMap := by
  refine fun s v => ⟨writesAs_offsetOf (r := .ctrl) rfl rfl, writesAs_offsetOf (r := .status) rfl ?_,
    fun addr => accessAt_write (r := .cmd) rfl addr v s,
    fun i => writesAs_offsetOf (r := .key i) rfl ?_, fun i => writesAs_offsetOf (r := .din i) rfl ?_,
    fun i => writesAs_offsetOf (r := .base i) rfl ?_, fun i => writesAs_offsetOf (r := .exp i) rfl ?_,
    fun i => writesAs_offsetOf (r := .mod i) rfl ?_,
    writesAs_offsetOf (r := .id) rfl rfl, writesAs_offsetOf (r := .cfg) rfl rfl,
    fun i => writesAs_offsetOf (r := .dout i) rfl rfl, fun i => writesAs_offsetOf (r := .st i) rfl rfl,
    fun i => writesAs_offsetOf (r := .rk i) rfl rfl, fun i => writesAs_offsetOf (r := .res i) rfl rfl,
    fun _ h => writesAs_reserved h s v⟩
  case refine_1 => exact congrArg _ (writeStatus_eq_ite v _)
  case refine_2 | refine_3 => exact congrArg _ (writeOperand_eq_ite _ _)
  case refine_4 | refine_5 | refine_6 => exact congrArg _ (writeElem_eq_ite i _ _)

/-- Settles O14, by the answer each kind of access gets. -/
theorem legalAccessesAreAnswered : Obligations.LegalAccessesAreAnswered := by
  refine ⟨fun s t off addr size h => ?_, fun s t off addr size v h => ?_, fun s off a => accessAt_next off a s⟩
  · rw [accessAt_read_resp h]
    split
    next hl => simpa using hl
    next hl => simpa using hl
  · rw [accessAt_write_resp h]
    split
    next hl => simpa using hl
    next hl => simpa using hl

/-- Settles O15: the access is reached inside the window, and is illegal there. -/
theorem illegalAccessChangesNothing : Obligations.IllegalAccessChangesNothing := by
  intro s a rest off size hr hs hw ha hl
  have hl : ¬ LegalAccess size off := fun h => hl.elim (absurd h.1) (absurd h.2)
  rw [step_access hr hs hw, accessAt_illegal ha hl]
  rfl

/-- Settles O20: an address below or above the window has no offset in it. -/
theorem outsideWindowNothingHappens : Obligations.OutsideWindowNothingHappens :=
  fun _ _ _ hs h => step_outside hs (windowOffset_of_outside h)

end Sys2Proof.Claim
end

section
/-! Command words, said once: a word in its three fields (R100), what the opcode map gives (R103), and the words that
decode (R104, R105); then what issuing a refused command records (R262, R263). -/

namespace Sys2Proof.Machine

open Sys2Proof Sys2Proof.Claim

/-! ### Words and their fields -/

/-- A word is its three fields, RSVD first (R100). -/
theorem fields_eq_word (v : Word) : (rsvdField v ++ argField v ++ opField v : BitVec (16 + 8 + 8)) = v := by
  have hupper : rsvdField v ++ argField v = v.extractLsb' 8 (16 + 8) :=
    BitVec.extractLsb'_append_extractLsb'_eq_extractLsb' rfl
  rw [hupper]
  exact (BitVec.extractLsb'_append_extractLsb'_eq_extractLsb' rfl).trans BitVec.extractLsb'_eq_self

@[simp] theorem rsvdField_encode (i : Instr) : rsvdField (encode i) = 0 :=
  (BitVec.extractLsb'_append_eq_of_le (by decide)).trans BitVec.extractLsb'_append_eq_left

@[simp] theorem argField_encode (i : Instr) : argField (encode i) = i.arg :=
  (BitVec.extractLsb'_append_eq_of_le (by decide)).trans BitVec.extractLsb'_append_eq_right

@[simp] theorem opField_encode (i : Instr) : opField (encode i) = i.opcode :=
  BitVec.extractLsb'_append_eq_right

/-- The encoding of a command is the one word with RSVD 0 and the command's own OP and ARG (R100). -/
theorem encode_eq_iff {i : Instr} {v : Word} :
    encode i = v ↔ rsvdField v = 0 ∧ opField v = i.opcode ∧ argField v = i.arg := by
  constructor
  · rintro rfl
    simp
  · rintro ⟨hrsvd, hop, harg⟩
    rw [← fields_eq_word v, hrsvd, hop, harg]
    rfl

/-! ### Opcodes -/

/-- Only ADD_RK has an operand; every other command has ARG 0 and is well formed (R102). -/
theorem isAddRk_or_noOperand (i : Instr) :
    (∃ n, i = .addRk n) ∨ (i.opcode ≠ 0x14 ∧ i.arg = 0 ∧ i.wf = true) := by
  cases i <;> simp [Instr.opcode, Instr.arg, Instr.wf]

/-- The opcode map gives the command with that opcode, and ADD_RK the argument it is given (R103). -/
theorem commandOf_eq_some {op arg : Byte} {i : Instr} (h : commandOf op arg = some i) :
    op = i.opcode ∧ ∀ n, i = .addRk n → n = arg := by
  unfold commandOf at h
  split at h <;> cases h <;> simp_all [← BitVec.toNat_inj, Instr.opcode]

/-- Every command's opcode is assigned. -/
theorem opcode_mem_assignedOps (i : Instr) : i.opcode ∈ assignedOps := by
  cases i <;> simp [Instr.opcode, assignedOps]

/-- Every assigned opcode is in the opcode map (R105). -/
theorem exists_commandOf_of_mem {op : Byte} (h : op ∈ assignedOps) (arg : Byte) :
    ∃ i, commandOf op arg = some i := by
  revert h op
  simp [assignedOps, commandOf]

/-- The OP and ARG of a well-formed command: an assigned opcode, with a round-key index for ADD_RK and 0 for the others
(R102, R105). -/
theorem exists_wf_iff {op arg : Byte} :
    (∃ i : Instr, i.wf = true ∧ op = i.opcode ∧ arg = i.arg) ↔
      op ∈ assignedOps ∧ (op = 0x14 → arg.toNat ≤ 14) ∧ (op ≠ 0x14 → arg = 0) := by
  constructor
  · rintro ⟨i, hwf, rfl, rfl⟩
    refine ⟨opcode_mem_assignedOps i, ?_⟩
    obtain ⟨n, rfl⟩ | ⟨hop, harg, -⟩ := isAddRk_or_noOperand i
    · simpa [Instr.opcode, Instr.arg, Instr.wf] using hwf
    · exact ⟨fun h => absurd h hop, fun _ => harg⟩
  · rintro ⟨hmem, hidx, hzero⟩
    obtain ⟨i, hi⟩ := exists_commandOf_of_mem hmem arg
    obtain ⟨rfl, hn⟩ := commandOf_eq_some hi
    refine ⟨i, ?_⟩
    obtain ⟨n, rfl⟩ | ⟨hop, harg, hwf⟩ := isAddRk_or_noOperand i
    · obtain rfl := hn n rfl
      simpa [Instr.opcode, Instr.arg, Instr.wf] using hidx
    · exact ⟨hwf, rfl, (hzero hop).trans harg.symm⟩

/-! ### The words that decode -/

/-- The round trip of R105, gathered from its 15 commands. -/
theorem decode_encode {i : Instr} (h : i.wf = true) : decode (encode i) = .command i := by
  cases i with
  | nop => exact Laws.RoundTrip.nop h
  | keyexp => exact Laws.RoundTrip.keyexp h
  | enc => exact Laws.RoundTrip.enc h
  | dec => exact Laws.RoundTrip.dec h
  | zeroize => exact Laws.RoundTrip.zeroize h
  | stLoad => exact Laws.RoundTrip.stLoad h
  | subBytes => exact Laws.RoundTrip.subBytes h
  | shiftRows => exact Laws.RoundTrip.shiftRows h
  | mixColumns => exact Laws.RoundTrip.mixColumns h
  | addRk n => exact Laws.RoundTrip.addRk n h
  | stStore => exact Laws.RoundTrip.stStore h
  | invSubBytes => exact Laws.RoundTrip.invSubBytes h
  | invShiftRows => exact Laws.RoundTrip.invShiftRows h
  | invMixColumns => exact Laws.RoundTrip.invMixColumns h
  | modexp => exact Laws.RoundTrip.modexp h

/-- A word that decodes passed every check of R105, and so is the encoding of a well-formed command. -/
theorem wf_and_encode_of_decode {v : Word} {i : Instr} (h : decode v = .command i) : i.wf = true ∧ encode i = v := by
  unfold decode at h
  split at h
  next => cases h
  next hrsvd =>
    rw [encode_eq_iff]
    split at h
    next => cases h
    next n hc =>
      obtain ⟨hop, hn⟩ := commandOf_eq_some hc
      split at h <;> cases h
      next hle => exact ⟨by simpa [Instr.wf] using hle, not_not.mp hrsvd, hop, (hn n rfl).symm⟩
    next j hne hc =>
      split at h <;> cases h
      next harg =>
        obtain ⟨n, rfl⟩ | ⟨-, hzero, hwf⟩ := isAddRk_or_noOperand i
        · exact absurd rfl (hne n)
        · exact ⟨hwf, not_not.mp hrsvd, (commandOf_eq_some hc).1, (not_not.mp harg).trans hzero.symm⟩

/-- The words that decode are the encodings of the well-formed commands, each to its own command (R105). -/
theorem decode_eq_command_iff {v : Word} {i : Instr} : decode v = .command i ↔ i.wf = true ∧ encode i = v :=
  ⟨wf_and_encode_of_decode, fun ⟨hwf, he⟩ => he ▸ decode_encode hwf⟩

/-- A word is a command exactly when RSVD is 0 and its OP and ARG are those of a well-formed command. -/
theorem exists_decode_iff {v : Word} :
    (∃ i, decode v = .command i) ↔
      rsvdField v = 0 ∧ ∃ i : Instr, i.wf = true ∧ opField v = i.opcode ∧ argField v = i.arg := by
  simp only [decode_eq_command_iff, encode_eq_iff]
  exact ⟨fun ⟨i, hwf, hrsvd, hf⟩ => ⟨hrsvd, i, hwf, hf⟩, fun ⟨hrsvd, i, hwf, hf⟩ => ⟨i, hwf, hrsvd, hf⟩⟩

/-- A word is illegal exactly when it is no command (R105). -/
theorem exists_illegal_iff {v : Word} : (∃ why, decode v = .illegal why) ↔ ¬ ∃ i, decode v = .command i := by
  cases decode v <;> simp

/-! ### Refused commands -/

/-- A command that fails a check of R262 only records that error. -/
theorem issued_of_issueError {i : Instr} {s : State} {e : ErrCode} (h : issueError i s = some e) :
    issued i s = recorded e s := by
  simp only [issued, h, raiseError_eq_recorded]

/-- Without the inverse cipher, a well-formed inverse command on an idle block fails with E_UNSUPPORTED (R262). -/
theorem issueError_unsupported {i : Instr} {s : State} (hb : s.busy = false) (hwf : i.wf = true)
    (hi : needsInverse i = true) (hd : s.params.hasDec = false) : issueError i s = some .unsupported := by
  simp [issueError, hb, hwf, hi, hd]

/-- Issued on an idle block, an illegal word only records E_ILLEGAL (R104). -/
theorem issueWord_illegal {v : Word} {why : Illegal} {s : State} (h : decode v = .illegal why) (hb : s.busy = false) :
    issueWord v s = .next (recorded .illegal s) := by
  simp [issueWord, h, hb, raiseError_eq_recorded]

end Sys2Proof.Machine
end

section
/-! The statements of the command words. -/

namespace Sys2Proof.Claim

open Sys2Proof Sys2Proof.Machine

/-- Settles O1, command by command. -/
theorem decodeOfEncode : Obligations.DecodeOfEncode := fun _ => decode_encode

/-- Settles O2, by the checks a word that decodes has passed. -/
theorem encodeOfDecode : Obligations.EncodeOfDecode := fun _ _ => wf_and_encode_of_decode

/-- Each listed word is the encoding of its well-formed command. -/
theorem encode_of_mem_legalWords : ∀ p ∈ legalWords, p.2.wf = true ∧ encode p.2 = p.1 := by decide

/-- Every well-formed command is listed with its encoding, ADD_RK at each of its 15 indices (R106). -/
theorem mem_legalWords_of_wf {i : Instr} (h : i.wf = true) : (encode i, i) ∈ legalWords := by
  cases i with
  | addRk n =>
    obtain ⟨k, hk, rfl⟩ : ∃ k < 15, n = BitVec.ofNat 8 k :=
      ⟨n.toNat, by simpa [Instr.wf, Nat.lt_succ_iff] using h, by simp⟩
    interval_cases k <;> decide
  | _ => decide

/-- Settles O3: the listed pairs are the well-formed commands with their encodings. -/
theorem legalWordsAreTheListed : Obligations.LegalWordsAreTheListed := by
  refine ⟨fun v i => decode_eq_command_iff.trans ⟨?_, encode_of_mem_legalWords (v, i)⟩, rfl, by decide⟩
  rintro ⟨hwf, rfl⟩
  exact mem_legalWords_of_wf hwf

/-- Settles O4: a word that is no command fails one of the conditions on its fields, and the inverse commands fail the
third check of their issue. -/
theorem illegalWordsAreRefused : Obligations.IllegalWordsAreRefused := by
  refine ⟨fun v => ?_, fun v why s h _ hb => issueWord_illegal h hb, fun p hp => ?_⟩
  · rw [exists_illegal_iff, exists_decode_iff, exists_wf_iff]
    simp only [rsvdField, opField, argField]
    have hlt := @Nat.not_le (v.extractLsb' 8 8).toNat 14
    tauto
  · have hinv : decode p.1 = .command p.2 ∧ p.2.wf = true ∧ needsInverse p.2 = true := by
      revert p; decide
    obtain ⟨hdec, hwf, hi⟩ := hinv
    exact ⟨hdec, fun s ha hb hd =>
      (exec_host _ ha).trans (congrArg _ (issued_of_issueError (issueError_unsupported hb hwf hi hd)))⟩

/-- Settles O5: the words are fixed. -/
theorem writtenOutWordsDecode : Obligations.WrittenOutWordsDecode := by
  unfold Obligations.WrittenOutWordsDecode
  decide

end Sys2Proof.Claim
end

section
/-! The field GF(2^8) (R130 to R133): doubling, the product, and an induction over the bytes that doubling and addition
reach from 1, by which the product commutes and associates. -/

namespace Sys2Proof.Machine

open Sys2Proof

/-! ### Doubling -/

/-- A constant added on the exclusive-or of two conditions is added once for each. -/
theorem ite_xor (p q : Bool) (c : Byte) :
    (if p ^^ q then c else 0) = (if p then c else 0) ^^^ (if q then c else 0) := by
  cases p <;> cases q <;> simp

/-- R131's reduction on 8 bits: the shifted byte, with 0x1B added when its top bit was set. -/
theorem double_eq (b : Byte) : double b = b <<< 1 ^^^ (if b.getLsbD 7 then 0x1B else 0) := by
  have hshift : (b.setWidth 9 <<< 1).setWidth 8 = b <<< 1 := by ext i hi; simp
  simp only [double]
  split
  · rw [BitVec.setWidth_xor, hshift]; rfl
  · simp [hshift]

/-- Doubling is linear (R131). -/
@[simp] theorem double_xor (a b : Byte) : double (a ^^^ b) = double a ^^^ double b := by
  simp only [double_eq, BitVec.shiftLeft_xor_distrib, BitVec.getLsbD_xor, ite_xor]
  ac_rfl

@[simp] theorem double_zero : double 0#8 = 0#8 := rfl

/-- The value of a double: `2b`, with 0x11B added in the field when it does not fit a byte (R131). -/
theorem toNat_double (b : Byte) :
    (double b).toNat = if 128 ≤ b.toNat then 2 * b.toNat ^^^ 0x11B else 2 * b.toNat := by
  have htop : b.getLsbD 7 = decide (128 ≤ b.toNat) := BitVec.msb_eq_decide b
  have hshift : (b.setWidth 9 <<< 1).toNat = 2 * b.toNat := by simp; omega
  simp only [double, htop, decide_eq_true_eq]
  split
  case isTrue h =>
    have hcarry : 2 * b.toNat / 2 ^ 8 = 1 := by omega
    have hbyte : 2 * b.toNat ^^^ 0x11B < 2 ^ 8 := by
      rw [← Nat.div_eq_zero_iff_lt (by decide), Nat.xor_div_two_pow, hcarry]
      rfl
    rw [BitVec.toNat_setWidth, BitVec.toNat_xor, hshift]
    exact Nat.mod_eq_of_lt hbyte
  case isFalse h =>
    rw [BitVec.toNat_setWidth, hshift]
    omega

/-! ### The loop of the product -/

/-- One turn of the loop adds the doubled byte when the lowest bit is set (R133). -/
theorem gmulLoop_succ (n : Nat) (b x r : Byte) :
    gmulLoop (n + 1) b x r = gmulLoop n (b >>> 1) (double x) (r ^^^ (if b.getLsbD 0 then x else 0)) := by
  rw [gmulLoop]
  split <;> simp

/-- The loop is additive in the byte it doubles and in its sum. -/
theorem gmulLoop_xor_left (n : Nat) (b x y r s : Byte) :
    gmulLoop n b (x ^^^ y) (r ^^^ s) = gmulLoop n b x r ^^^ gmulLoop n b y s := by
  induction n generalizing b x y r s with
  | zero => rfl
  | succ n ih =>
    simp only [gmulLoop, double_xor, ← ih]
    congr 1
    split
    · ac_rfl
    · rfl

/-- The loop is additive in the byte whose bits it reads and in its sum. -/
theorem gmulLoop_xor_right (n : Nat) (b c x r s : Byte) :
    gmulLoop n (b ^^^ c) x (r ^^^ s) = gmulLoop n b x r ^^^ gmulLoop n c x s := by
  induction n generalizing b c x r s with
  | zero => rfl
  | succ n ih =>
    simp only [gmulLoop_succ, BitVec.ushiftRight_xor_distrib, BitVec.getLsbD_xor, ite_xor, ← ih]
    congr 1
    ac_rfl

/-- Doubling the doubled byte and the sum doubles the loop's result. -/
theorem gmulLoop_double (n : Nat) (b x r : Byte) :
    gmulLoop n b (double x) (double r) = double (gmulLoop n b x r) := by
  induction n generalizing b x r with
  | zero => rfl
  | succ n ih =>
    simp only [gmulLoop, ← ih]
    congr 1
    split
    · exact (double_xor r x).symm
    · rfl

/-- What holds of the two bytes the loop starts from, and is kept by doubling and by addition, holds of its result. -/
theorem gmulLoop_closed {P : Byte → Prop} (hdouble : ∀ a, P a → P (double a))
    (hxor : ∀ a b, P a → P b → P (a ^^^ b)) (n : Nat) (b : Byte) {x r : Byte} (hx : P x) (hr : P r) :
    P (gmulLoop n b x r) := by
  induction n generalizing b x r with
  | zero => exact hr
  | succ n ih =>
    refine ih _ (hdouble x hx) ?_
    split
    · exact hxor r x hr hx
    · exact hr

/-! ### The product -/

/-- The product is additive on the left. -/
theorem gmul_xor_left (a b c : Byte) : gmul (a ^^^ b) c = gmul a c ^^^ gmul b c :=
  gmulLoop_xor_left 8 c a b 0 0

/-- The product is additive on the right. -/
theorem gmul_xor_right (c a b : Byte) : gmul c (a ^^^ b) = gmul c a ^^^ gmul c b :=
  gmulLoop_xor_right 8 a b c 0 0

/-- The product moves past a doubling on the left. -/
theorem gmul_double_left (a b : Byte) : gmul (double a) b = double (gmul a b) :=
  gmulLoop_double 8 b a 0

@[simp] theorem gmul_zero_left (b : Byte) : gmul 0#8 b = 0#8 := by
  simpa using gmul_xor_left 0#8 0#8 b

@[simp] theorem gmul_zero (a : Byte) : gmul a 0#8 = 0#8 := by
  simpa using gmul_xor_right a 0#8 0#8

@[simp] theorem gmul_one (a : Byte) : gmul a 1#8 = a := by
  simp [gmul, gmulLoop]

theorem gmul_two (a : Byte) : gmul a 2 = double a := by
  simp [gmul, gmulLoop]

theorem gmul_three (a : Byte) : gmul a 3 = times3 a := by
  rw [show (3 : Byte) = 2 ^^^ 1#8 from rfl, gmul_xor_right, gmul_two, gmul_one, times3]

/-- The powers of x the loop reaches from 1, added over the set bits of a byte, are that byte (R130). -/
@[simp] theorem gmul_one_left (b : Byte) : gmul 1#8 b = b := by
  revert b; decide +kernel

/-- Doubling and addition reach every byte from 0 and 1. -/
theorem byte_induction {P : Byte → Prop} (zero : P 0#8) (one : P 1#8) (dbl : ∀ a, P a → P (double a))
    (xor : ∀ a b, P a → P b → P (a ^^^ b)) (a : Byte) : P a :=
  gmul_one_left a ▸ gmulLoop_closed dbl xor 8 a one zero

/-- The product moves past a doubling on the right. -/
theorem gmul_double_right (a b : Byte) : gmul a (double b) = double (gmul a b) := by
  induction a using byte_induction with
  | zero => simp
  | one => simp
  | dbl a ih => rw [gmul_double_left, gmul_double_left, ih]
  | xor a c iha ihc => rw [gmul_xor_left, gmul_xor_left, iha, ihc, double_xor]

/-- The product commutes. -/
theorem gmul_comm (a b : Byte) : gmul a b = gmul b a := by
  induction a using byte_induction with
  | zero => simp
  | one => simp
  | dbl a ih => rw [gmul_double_left, gmul_double_right, ih]
  | xor a c iha ihc => rw [gmul_xor_left, gmul_xor_right, iha, ihc]

/-- The product is associative. -/
theorem gmul_assoc (a b c : Byte) : gmul (gmul a b) c = gmul a (gmul b c) := by
  induction a using byte_induction with
  | zero => simp
  | one => simp
  | dbl a ih => simp only [gmul_double_left, ih]
  | xor a d iha ihd => simp only [gmul_xor_left, iha, ihd]

end Sys2Proof.Machine
end

section
/-! The two tables (R135 to R137) and the round constants (R138). -/

namespace Sys2Proof.Machine

open Sys2Proof

/-! ### The S-box and the field inverse -/

/-- The inverse of the affine map of R135. -/
def affineInv (y : Byte) : Byte := y.rotateLeft 1 ^^^ y.rotateLeft 3 ^^^ y.rotateLeft 6 ^^^ 0x05

theorem affine_affineInv : ∀ y : Byte, affine (affineInv y) = y := by decide +kernel

/-- The byte whose affine image the table of R136 holds at `a`: R135's `inv(a)`. -/
def fieldInv (a : Byte) : Byte := affineInv (sbox a)

theorem affine_fieldInv (a : Byte) : affine (fieldInv a) = sbox a := affine_affineInv (sbox a)

/-- What the table holds for a nonzero byte comes from an inverse of it. -/
theorem gmul_fieldInv : ∀ a : Byte, a ≠ 0 → gmul a (fieldInv a) = 1#8 := by decide +kernel

/-- A nonzero byte has exactly one inverse (R135). -/
theorem gmul_eq_one_iff {a : Byte} (ha : a ≠ 0) (y : Byte) : gmul a y = 1#8 ↔ y = fieldInv a := by
  constructor
  · intro h
    calc y = gmul (gmul (fieldInv a) a) y := by rw [gmul_comm (fieldInv a), gmul_fieldInv a ha, gmul_one_left]
      _ = gmul (fieldInv a) (gmul a y) := gmul_assoc ..
      _ = fieldInv a := by rw [h, gmul_one]
  · rintro rfl
    exact gmul_fieldInv a ha

/-! ### The inverse S-box -/

/-- R137's table undoes R136's. -/
@[simp] theorem invSbox_sbox : ∀ a : Byte, invSbox (sbox a) = a := by decide +kernel

/-- The S-box is a permutation, being injective on a finite type, so its left inverse is a right inverse too. -/
@[simp] theorem sbox_invSbox (a : Byte) : sbox (invSbox a) = a := by
  have hleft : Function.LeftInverse invSbox sbox := invSbox_sbox
  have : Finite Byte := Finite.of_injective BitVec.toFin fun _ _ => BitVec.eq_of_toFin_eq
  exact hleft.rightInverse_of_surjective (Finite.surjective_of_injective hleft.injective) a

/-- The S-box has no fixed point and no opposite fixed point (R136). -/
theorem sbox_ne : ∀ a : Byte, sbox a ≠ a ∧ sbox a ≠ a ^^^ 0xFF := by decide +kernel

/-! ### The round constants -/

/-- The round constants have period 51: 51 doublings lead from 1 back to it. -/
theorem rc_add_period (k : Nat) : rc (k + 51) = rc k := by
  induction k with
  | zero => decide +kernel
  | succ k ih => exact congrArg double ih

/-- No smaller number of doublings leads back to 1. -/
theorem rc_ne_one_of_lt_period : ∀ d < 51, 0 < d → rc d ≠ 1 := by decide +kernel

end Sys2Proof.Machine
end

section
/-! The statements of the field, its tables and the round constants. -/

namespace Sys2Proof.Claim

open Sys2Proof Sys2Proof.Machine

/-- Settles O27: `gmul` is bilinear over XOR and moves past a doubling, and doubling and addition reach every
byte from 1. -/
theorem gmulIsFieldProduct : Obligations.GmulIsFieldProduct :=
  ⟨fun a b c => ⟨gmul_xor_left a b c, gmul_xor_right c a b⟩, fun a b => ⟨gmul_comm a b, gmul_double_left a b⟩,
    fun a => ⟨gmul_one a, gmul_two a, gmul_three a⟩, by decide, by decide⟩

/-- Settles O28: undoing the affine map gives an inverse at every nonzero byte, the only one by associativity. -/
theorem sboxIsInverseThenAffine : Obligations.SboxIsInverseThenAffine := fun a =>
  ⟨fieldInv a, by rintro rfl; decide, gmul_eq_one_iff, (affine_fieldInv a).symm⟩

/-- Settles O30: the period is 51 from 51 doublings of 1, and no fewer. -/
theorem roundConstantsDouble : Obligations.RoundConstantsDouble :=
  ⟨rfl, fun _ => rfl, by decide, rc_add_period, fun d hpos hlt => rc_ne_one_of_lt_period d hlt hpos,
    by decide +kernel⟩

/-- Settles O26, by the value of a double and its linearity. -/
theorem doubleIsReducedShift : Obligations.DoubleIsReducedShift :=
  ⟨toNat_double, by decide, by decide, by decide, by decide, double_xor⟩

/-- Settles O29: the inverse table undoes the table, and the S-box is a permutation. -/
theorem invSboxIsInverse : Obligations.InvSboxIsInverse :=
  ⟨fun a => ⟨invSbox_sbox a, sbox_invSbox a⟩, sbox_ne, by decide, by decide, by decide, by decide⟩

end Sys2Proof.Claim
end

section
/-! The key schedule (R160 to R165): the two word functions byte by byte, and what the loop of the expansion forms. -/

namespace Sys2Proof.Machine

open Sys2Proof

/-! ### The word functions -/

/-- Byte `r` of a rotated word is the byte after it, the first coming last (R160). -/
@[simp] theorem byteOf_rotWord (r : Fin 4) (w : Word) : byteOf r (rotWord w) = byteOf (r + 1) w := by
  ext i hi
  simp only [rotWord, byteOf, BitVec.getElem_extractLsb', BitVec.getLsbD_rotateLeft]
  fin_cases r <;> grind

/-- RotWord on the bytes of a word (R160). -/
theorem rotWord_word (b0 b1 b2 b3 : Byte) : rotWord (word b0 b1 b2 b3) = word b1 b2 b3 b0 := by
  refine word_ext fun r => ?_
  fin_cases r <;> simp

/-- SubWord on the bytes of a word (R161). -/
theorem subWord_word (b0 b1 b2 b3 : Byte) :
    subWord (word b0 b1 b2 b3) = word (sbox b0) (sbox b1) (sbox b2) (sbox b3) := by
  simp only [subWord, byteOf_zero_word, byteOf_one_word, byteOf_two_word, byteOf_three_word]

/-! ### The loop of the expansion -/

/-- The words formed so far stay as they are: the loop only appends (R162). -/
theorem getD_expandLoop (n i k : Nat) {ws : List Word} {j : Nat} (h : j < ws.length) :
    (expandLoop n i k ws).getD j 0 = ws.getD j 0 := by
  induction n generalizing i k ws with
  | zero => rfl
  | succ n ih => rw [expandLoop, ih _ _ (by simp; omega), List.getD_append _ _ _ _ h]

/-- Word `i` of `ws` is the one R162 forms from the words before it, the round constant being the one of R163. -/
def FormedAt (ws : List Word) (i : Nat) : Prop :=
  ws.getD i 0 = ws.getD (i - 8) 0 ^^^ scheduleTerm i (i / 8 - 1) (ws.getD (i - 1) 0)

/-- The round counter matters only at a multiple of 8, where it has counted the multiples from 8 on before it (R163). -/
theorem scheduleTerm_counter {i : Nat} (t : Word) : scheduleTerm i ((i - 1) / 8) t = scheduleTerm i (i / 8 - 1) t := by
  unfold scheduleTerm
  split
  next h => rw [show (i - 1) / 8 = i / 8 - 1 by omega]
  next => rfl

/-- A formed word stays formed: the loop changes none of the words it is formed from. -/
theorem FormedAt.keptByLoop {ws : List Word} {i : Nat} (h : FormedAt ws i) (hi : i < ws.length) (n m k : Nat) :
    FormedAt (expandLoop n m k ws) i := by
  rwa [FormedAt, getD_expandLoop _ _ _ hi, getD_expandLoop _ _ _ (by omega), getD_expandLoop _ _ _ (by omega)]

/-- The word a turn of the loop appends is the one R162 forms. -/
theorem formedAt_append {ws : List Word} {m k : Nat} (hpos : 0 < m) (hm : ws.length = m) (hk : k = (m - 1) / 8) :
    FormedAt (ws ++ [ws.getD (m - 8) 0 ^^^ scheduleTerm m k (ws.getD (m - 1) 0)]) m := by
  rw [FormedAt, List.getD_append _ _ _ (m - 8) (by omega), List.getD_append _ _ _ (m - 1) (by omega), hk,
    scheduleTerm_counter, List.getD_append_right _ _ _ _ hm.le]
  simp [hm]

/-- From 8 words on, with the round counter at the number of multiples of 8 from 8 on already formed (R163), every word
the loop adds is the one R162 forms. -/
theorem formedAt_expandLoop (n : Nat) {ws : List Word} {m k : Nat} (h8 : 8 ≤ m) (hm : ws.length = m)
    (hk : k = (m - 1) / 8) {i : Nat} (hi : m ≤ i) (hlt : i < m + n) : FormedAt (expandLoop n m k ws) i := by
  induction n generalizing ws m k with
  | zero => omega
  | succ n ih =>
    rw [expandLoop]
    obtain rfl | hnext := hi.eq_or_lt
    · exact (formedAt_append (by omega) hm hk).keptByLoop (by simp [hm]) _ _ _
    · exact ih (by omega) (by simp [hm]) (by split <;> omega) hnext (by omega)

/-- A word of the schedule is the word the loop leaves there. -/
theorem getElem_expand (K : Vector Word 8) {i : Nat} (h : i < 60) :
    (expand K)[i] = (expandLoop 52 8 0 K.toList).getD i 0 := by
  have hlen : i < (expandLoop 52 8 0 K.toList).length := by simpa [length_expandLoop] using h
  rw [List.getD_eq_getElem _ _ hlen]
  simp [expand]

/-- Words 0 to 7 of the schedule are the key (R162). -/
theorem getElem_expand_of_lt (K : Vector Word 8) {i : Nat} (h : i < 8) : (expand K)[i] = K[i] := by
  rw [getElem_expand, getD_expandLoop _ _ _ (by simpa using h), List.getD_eq_getElem _ _ (by simpa using h)]
  simp

/-- Words 8 to 59 of the schedule are those R162 forms. -/
theorem getElem_expand_of_le (K : Vector Word 8) {i : Nat} (h8 : 8 ≤ i) (h : i < 60) :
    (expand K)[i] = (expand K)[i - 8] ^^^ scheduleTerm i (i / 8 - 1) (expand K)[i - 1] := by
  have hformed : FormedAt (expandLoop 52 8 0 K.toList) i := formedAt_expandLoop 52 le_rfl (by simp) rfl h8 h
  simpa only [getElem_expand, FormedAt] using hformed

end Sys2Proof.Machine
end

section
/-! Issuing a command, said once: the words with a command's opcode (R103, R104), and acceptance (R36, R262). -/

namespace Sys2Proof.Machine

open Sys2Proof Sys2Proof.Claim

/-- The opcode map gives a command without operand back from its opcode (R103). -/
theorem commandOf_opcode {i : Instr} (h : i.opcode ≠ 0x14) (arg : Byte) : commandOf i.opcode arg = some i := by
  cases i with
  | addRk => exact absurd rfl h
  | _ => rfl

/-- A command without operand is the only one with its opcode. -/
theorem eq_of_opcode_eq {i j : Instr} (h : i.opcode ≠ 0x14) (hij : j.opcode = i.opcode) : j = i :=
  Option.some.inj <|
    calc some j = commandOf j.opcode 0 := (commandOf_opcode (hij ▸ h) 0).symm
      _ = some i := hij ▸ commandOf_opcode h 0

/-- Every word with the opcode of a command without operand, other than its encoding, is illegal (R104). -/
theorem exists_illegal_of_opcode {i : Instr} (h : i.opcode ≠ 0x14) {v : Word} (hv : opField v = i.opcode)
    (hne : v ≠ encode i) : ∃ why, decode v = .illegal why := by
  rw [exists_illegal_iff]
  rintro ⟨j, hj⟩
  obtain ⟨-, rfl⟩ := wf_and_encode_of_decode hj
  exact hne (congrArg encode (eq_of_opcode_eq h (opField_encode j ▸ hv)))

/-- What every command without operand has in common: its one word, and the two errors of its issue (R104, R262). -/
theorem issuedAs_encode {i : Instr} (h : i.opcode ≠ 0x14) : IssuedAs i (encode i) := by
  have hwf : i.wf = true := by
    obtain ⟨n, rfl⟩ | ⟨-, -, hwf⟩ := isAddRk_or_noOperand i
    · exact absurd rfl h
    · exact hwf
  refine ⟨rfl, decode_encode hwf, fun s ha hb => ?_, fun v s _ hb hv hne => ?_⟩
  · rw [exec_host i ha, issued_of_issueError (issueError_busy i hb)]
  · obtain ⟨why, hwhy⟩ := exists_illegal_of_opcode h (hv.trans (opField_encode i)) hne
    exact issueWord_illegal hwhy hb

/-- A command that passes every check of R262 is accepted. -/
theorem exec_accept {i : Instr} {s : State} (ha : s.agent = .host) (hn : i ≠ .nop) (hi : issueError i s = none) :
    exec i s = .next (s.accept i) := by
  simp only [exec_host i ha, issued, hi, if_neg hn]

/-- KEYEXP passes every check on an idle block (R166). -/
theorem issueError_keyexp {s : State} (hb : s.busy = false) : issueError .keyexp s = none := by
  simp [issueError, hb, Instr.wf, needsInverse, needsKey]

end Sys2Proof.Machine
end

section
/-! The statements of the key schedule. -/

namespace Sys2Proof.Claim

open Sys2Proof Sys2Proof.Machine

/-- Settles O32: the loop appends, and each word it appends is the one R162 forms. -/
theorem scheduleRecurrence : Obligations.ScheduleRecurrence :=
  fun K => ⟨fun i => getElem_expand_of_lt K i.isLt, fun _ h8 h => getElem_expand_of_le K h8 h⟩

/-- Settles O31, byte by byte. -/
theorem wordFunctions : Obligations.WordFunctions :=
  ⟨rotWord_word, subWord_word, fun w => (word_byteOf w).symm, by decide, by decide⟩

/-- R166's example: words 8 and 59 of the schedule of one key. -/
theorem expand_example {K : Vector Word 8}
    (hK : K =
      #v[0x603deb10, 0x15ca71be, 0x2b73aef0, 0x857d7781, 0x1f352c07, 0x3b6108d7, 0x2d9810a3, 0x0914dff4]) :
    (expand K)[8] = 0x9BA35411 ∧ (expand K)[59] = 0x706C631E := by
  subst hK
  decide +kernel

/-- Settles O38: KEYEXP passes every check on an idle block, and its completion reads nothing it writes. -/
theorem keyexpCommand : Obligations.KeyexpCommand := by
  refine ⟨issuedAs_encode (by decide), fun s ha hb => exec_accept ha (by decide) (issueError_keyexp hb),
    fun s ha => exec_sequencer .keyexp ha, fun s t ha ht => ?_,
    fun s ha hkey => ⟨_, exec_sequencer .keyexp ha, expand_example hkey⟩⟩
  obtain rfl := Host.Outcome.next.inj ((exec_sequencer .keyexp ha).symm.trans ht)
  exact exec_sequencer .keyexp rfl

end Sys2Proof.Claim
end

section
/-! The round functions (R180 to R185), said once byte by byte: SHIFT_ROWS as a shift of column indices, and the two
mixing steps as products with a matrix over the field, each inverse then being an identity of indices or of matrices. -/

namespace Sys2Proof.Machine

open Sys2Proof

/-! ### Substitution and shift -/

/-- SubBytes on a column is SubWord (R161, R181). -/
theorem subBytes_getElem (S : Columns) (c : Fin 4) : (subBytes S)[c] = subWord S[c] := by
  simp [subBytes, ofBytes, subWord, byteAt]

@[simp] theorem invSubBytes_subBytes (S : Columns) : invSubBytes (subBytes S) = S :=
  columns_ext fun r c => by simp

@[simp] theorem subBytes_invSubBytes (S : Columns) : subBytes (invSubBytes S) = S :=
  columns_ext fun r c => by simp

@[simp] theorem invShiftRows_shiftRows (S : Columns) : invShiftRows (shiftRows S) = S :=
  columns_ext fun r c => by simp

@[simp] theorem shiftRows_invShiftRows (S : Columns) : shiftRows (invShiftRows S) = S :=
  columns_ext fun r c => by simp

/-- Column `c` after the shift takes its byte of row `r` from column `c + r` (R182). -/
theorem shiftRows_getElem (S : Columns) (c : Fin 4) :
    (shiftRows S)[c] = word (byteOf 0 S[c]) (byteOf 1 S[c + 1]) (byteOf 2 S[c + 2]) (byteOf 3 S[c + 3]) := by
  simp [shiftRows, ofBytes, byteAt]

/-- Shifting by `r` once more than three times is shifting by `4r`, which is 0 on four columns, so three shifts undo
one (R208). -/
theorem invShiftRows_eq_shiftRows_three (S : Columns) : invShiftRows S = shiftRows (shiftRows (shiftRows S)) := by
  have hindex : ∀ r c : Fin 4, c - r = c + r + r + r := by decide
  exact columns_ext fun r c => by simp only [byteAt_invShiftRows, byteAt_shiftRows, hindex]

/-- Equal columns have the same bytes in every column. -/
theorem byteAt_replicate (w : Word) (r c : Fin 4) : byteAt (Vector.replicate 4 w) r c = byteOf r w := by
  simp [byteAt]

/-- A shift moves bytes between columns only (R203). -/
theorem shiftRows_replicate (w : Word) : shiftRows (Vector.replicate 4 w) = Vector.replicate 4 w :=
  columns_ext fun r c => by rw [byteAt_shiftRows, byteAt_replicate, byteAt_replicate]

/-! ### Round keys -/

/-- Adding a round key twice adds nothing (R180). -/
@[simp] theorem addRoundKey_addRoundKey (S : Columns) (W : Vector Word 60) (n : Nat) :
    addRoundKey (addRoundKey S W n) W n = S := by
  ext i hi : 1
  simp [addRoundKey]

/-- The first two round keys of a schedule are the halves of the key (R162, R180). -/
theorem addRoundKey_expand_getElem (S : Columns) (K : Vector Word 8) {n : Nat} (h : n ≤ 1) (c : Fin 4) :
    (addRoundKey S (expand K) n)[c] = S[c] ^^^ K[4 * n + c.val]'(by omega) := by
  rw [addRoundKey_getElem S _ (by omega), getElem_expand_of_lt]

/-! ### Mixing as a matrix product -/

/-- A row of field elements times a column of bytes. -/
def rowTimes (m a : Fin 4 → Byte) : Byte :=
  gmul (m 0) (a 0) ^^^ gmul (m 1) (a 1) ^^^ gmul (m 2) (a 2) ^^^ gmul (m 3) (a 3)

/-- The matrix `circ(2, 3, 1, 1)`: each row is the one above it moved one place to the right (R183). -/
def mixMatrix (r j : Fin 4) : Byte := ![2, 3, 1, 1] (j - r)

/-- The matrix `circ(0x0E, 0x0B, 0x0D, 0x09)` (R185). -/
def invMixMatrix (r j : Fin 4) : Byte := ![0x0E, 0x0B, 0x0D, 0x09] (j - r)

theorem gmul_two_left (a : Byte) : gmul 2#8 a = double a := (gmul_comm _ a).trans (gmul_two a)

theorem gmul_three_left (a : Byte) : gmul 3#8 a = times3 a := (gmul_comm _ a).trans (gmul_three a)

/-- MixColumns multiplies each column by its matrix (R183). -/
theorem byteAt_mixColumns (S : Columns) (r c : Fin 4) :
    byteAt (mixColumns S) r c = rowTimes (mixMatrix r) fun j => byteAt S j c := by
  rw [byteAt, mixColumns_getElem, mixColumn]
  fin_cases r <;> simp [rowTimes, mixMatrix, gmul_two_left, gmul_three_left]

/-- InvMixColumns multiplies each column by its matrix (R185). -/
theorem byteAt_invMixColumns (S : Columns) (r c : Fin 4) :
    byteAt (invMixColumns S) r c = rowTimes (invMixMatrix r) fun j => byteAt S j c := by
  rw [byteAt, invMixColumns_getElem, invMixColumn]
  fin_cases r <;> simp [rowTimes, invMixMatrix]

/-- A row times (a matrix times a column) is (the row times the matrix) times the column. -/
theorem rowTimes_assoc (m : Fin 4 → Byte) (K : Fin 4 → Fin 4 → Byte) (a : Fin 4 → Byte) :
    rowTimes m (fun i => rowTimes (K i) a) = rowTimes (fun j => rowTimes m fun i => K i j) a := by
  simp only [rowTimes, gmul_xor_left, gmul_xor_right, gmul_assoc]
  ac_rfl

/-- Row `r` of the identity matrix picks entry `r`. -/
theorem rowTimes_one (r : Fin 4) (a : Fin 4 → Byte) : rowTimes (fun j => if j = r then 1 else 0) a = a r := by
  fin_cases r <;> simp [rowTimes]

/-- R185's normative equation: the two matrices are inverse, in one order and in the other. -/
theorem invMixMatrix_mixMatrix : ∀ r j : Fin 4,
    (rowTimes (invMixMatrix r) fun i => mixMatrix i j) = if j = r then 1 else 0 := by decide

theorem mixMatrix_invMixMatrix : ∀ r j : Fin 4,
    (rowTimes (mixMatrix r) fun i => invMixMatrix i j) = if j = r then 1 else 0 := by decide

@[simp] theorem invMixColumns_mixColumns (S : Columns) : invMixColumns (mixColumns S) = S :=
  columns_ext fun r c => by
    simp only [byteAt_invMixColumns, byteAt_mixColumns, rowTimes_assoc, invMixMatrix_mixMatrix, rowTimes_one]

@[simp] theorem mixColumns_invMixColumns (S : Columns) : mixColumns (invMixColumns S) = S :=
  columns_ext fun r c => by
    simp only [byteAt_invMixColumns, byteAt_mixColumns, rowTimes_assoc, mixMatrix_invMixMatrix, rowTimes_one]

/-! ### Columns of four equal bytes -/

/-- A matrix whose rows have sum 1 leaves a column of four equal bytes as it is (R183, R185). -/
theorem column_const_of_rowSums {S T : Columns} {M : Fin 4 → Fin 4 → Byte} {c : Fin 4} {x : Byte}
    (hT : ∀ r, byteAt T r c = rowTimes (M r) fun j => byteAt S j c)
    (hM : ∀ r, M r 0 ^^^ M r 1 ^^^ M r 2 ^^^ M r 3 = 1#8) (hS : S[c] = word x x x x) : T[c] = word x x x x := by
  have hword : ∀ r, byteOf r (word x x x x) = x := fun r => by fin_cases r <;> simp
  have hbyte : ∀ r, byteAt S r c = x := fun r => by rw [byteAt, hS, hword]
  refine word_ext fun r => ?_
  calc byteAt T r c = gmul (M r 0) x ^^^ gmul (M r 1) x ^^^ gmul (M r 2) x ^^^ gmul (M r 3) x := by
        simp only [hT, hbyte, rowTimes]
    _ = x := by simp only [← gmul_xor_left, hM, gmul_one_left]
    _ = byteOf r (word x x x x) := (hword r).symm

theorem mixColumns_equalBytes {S : Columns} {c : Fin 4} {x : Byte} :
    S[c] = word x x x x → (mixColumns S)[c] = word x x x x :=
  column_const_of_rowSums (fun r => byteAt_mixColumns S r c) (by decide)

theorem invMixColumns_equalBytes {S : Columns} {c : Fin 4} {x : Byte} :
    S[c] = word x x x x → (invMixColumns S)[c] = word x x x x :=
  column_const_of_rowSums (fun r => byteAt_invMixColumns S r c) (by decide)

end Sys2Proof.Machine
end

section
/-! The cipher and its inverse (R186, R187): each inverse round undoes its round, so the inverse rounds in falling order
undo the rounds in rising order. -/

namespace Sys2Proof.Machine

open Sys2Proof

@[simp] theorem invCipherRound_cipherRound (W : Vector Word 60) (n : Nat) (S : Columns) :
    invCipherRound W n (cipherRound W n S) = S := by
  simp [invCipherRound, cipherRound]

@[simp] theorem cipherRound_invCipherRound (W : Vector Word 60) (n : Nat) (S : Columns) :
    cipherRound W n (invCipherRound W n S) = S := by
  simp [invCipherRound, cipherRound]

@[simp] theorem invCipherRounds_cipherRounds (W : Vector Word 60) (n : Nat) (S : Columns) :
    invCipherRounds W n (cipherRounds W n S) = S := by
  induction n with
  | zero => rfl
  | succ n ih => rw [cipherRounds, invCipherRounds, invCipherRound_cipherRound, ih]

@[simp] theorem cipherRounds_invCipherRounds (W : Vector Word 60) (n : Nat) (S : Columns) :
    cipherRounds W n (invCipherRounds W n S) = S := by
  induction n generalizing S with
  | zero => rfl
  | succ n ih => rw [cipherRounds, invCipherRounds, ih, cipherRound_invCipherRound]

/-- The inverse cipher undoes the cipher under any schedule (R187). -/
@[simp] theorem invCipher_cipher (X : Columns) (W : Vector Word 60) : invCipher (cipher X W) W = X := by
  simp [invCipher, cipher]

/-- The cipher undoes the inverse cipher under any schedule (R187). -/
@[simp] theorem cipher_invCipher (X : Columns) (W : Vector Word 60) : cipher (invCipher X W) W = X := by
  simp [invCipher, cipher]

/-- The rounds 1 to `n`, one after the other (R186). -/
theorem cipherRounds_eq_foldl (W : Vector Word 60) (n : Nat) (S : Columns) :
    cipherRounds W n S = (List.range' 1 n).foldl (fun S k => cipherRound W k S) S := by
  induction n with
  | zero => rfl
  | succ n ih => rw [cipherRounds, ih, List.range'_1_concat, List.foldl_concat, Nat.add_comm 1 n]

/-- The inverse rounds `n` down to 1, one after the other (R187). -/
theorem invCipherRounds_eq_foldl (W : Vector Word 60) (n : Nat) (S : Columns) :
    invCipherRounds W n S = (List.range' 1 n).reverse.foldl (fun S k => invCipherRound W k S) S := by
  induction n generalizing S with
  | zero => rfl
  | succ n ih =>
    rw [invCipherRounds, ih, List.range'_1_concat, List.reverse_concat, List.foldl_cons, Nat.add_comm 1 n]

end Sys2Proof.Machine
end

section
/-! Commands and host writes on an idle block: the two ends of a command (R262, R297), and the turns that run one to
completion or write a block to DIN. -/

namespace Sys2Proof.Machine

open Sys2Proof Sys2Proof.Claim

/-! ### Issuing -/

/-- A command but MODEXP whose checks pass raises no error (R262). -/
theorem issueError_of_checks {i : Instr} {s : State} (hb : s.busy = false) (hwf : i.wf = true) (hm : i ≠ .modexp)
    (hinv : needsInverse i = true → s.params.hasDec = true) (hkey : needsKey i = true → s.keyValid = true) :
    issueError i s = none := by
  have hinv' : ¬ (needsInverse i = true ∧ ¬ s.params.hasDec = true) := fun h => h.2 (hinv h.1)
  have hkey' : ¬ (needsKey i = true ∧ ¬ s.keyValid = true) := fun h => h.2 (hkey h.1)
  simp only [issueError, hb, hwf, hm, if_neg hinv', if_neg hkey']
  simp

/-- Without a valid key, a command that needs one and passes the checks before fails with E_NOKEY (R262). -/
theorem issueError_noKey {i : Instr} {s : State} (hb : s.busy = false) (hwf : i.wf = true)
    (hinv : needsInverse i = true → s.params.hasDec = true) (hi : needsKey i = true) (hk : s.keyValid = false) :
    issueError i s = some .noKey := by
  have hinv' : ¬ (needsInverse i = true ∧ ¬ s.params.hasDec = true) := fun h => h.2 (hinv h.1)
  simp only [issueError, hb, hwf, hi, hk, if_neg hinv']
  simp

/-- A command with its checks passed is accepted with KEY_VALID as it was; NOP, KEYEXP and MODEXP have rules of their
own (R36, R262). -/
theorem exec_accepted {i : Instr} {s : State} (hi : i ∉ [.nop, .keyexp, .modexp]) (hwf : i.wf = true)
    (ha : s.agent = .host) (hb : s.busy = false) (hinv : needsInverse i = true → s.params.hasDec = true)
    (hkey : needsKey i = true → s.keyValid = true) : exec i s = .next (accepted i s) := by
  simp only [List.mem_cons, List.not_mem_nil, or_false, not_or] at hi
  obtain ⟨hn, hk, hm⟩ := hi
  rw [exec_accept ha hn (issueError_of_checks hb hwf hm hinv hkey)]
  simp only [State.accept, if_neg hk, accepted]

/-- A command that fails a check of R262 only records that error. -/
theorem exec_recorded {i : Instr} {s : State} {e : ErrCode} (ha : s.agent = .host) (hi : issueError i s = some e) :
    exec i s = .next (recorded e s) := by
  rw [exec_host i ha, issued_of_issueError hi]

/-! ### ADD_RK's words -/

theorem wf_addRk {n : Byte} (h : n.toNat ≤ 14) : (Instr.addRk n).wf = true := decide_eq_true h

/-- ADD_RK's word holds its index in ARG (R106). -/
theorem encode_addRk (n : Byte) : encode (.addRk n) = BitVec.ofNat 32 (0x14 + 0x100 * n.toNat) := by
  apply BitVec.eq_of_toNat_eq
  change (0#16 ++ n ++ 0x14#8).toNat = _
  rw [BitVec.toNat_append, BitVec.toNat_append, ← Nat.shiftLeft_add_eq_or_of_lt n.isLt,
    ← Nat.shiftLeft_add_eq_or_of_lt (BitVec.isLt _)]
  simp only [BitVec.toNat_ofNat]
  omega

/-- A word with ADD_RK's opcode is illegal with RSVD not 0 or an index above 14 (R104, R205). -/
theorem exists_illegal_of_addRk {v : Word} (hop : opField v = 0x14)
    (h : rsvdField v ≠ 0 ∨ 14 < (argField v).toNat) : ∃ why, decode v = .illegal why := by
  rw [exists_illegal_iff, exists_decode_iff, exists_wf_iff]
  rintro ⟨hrsvd, -, hidx, -⟩
  exact h.elim (fun hne => hne hrsvd) (Nat.not_lt.mpr (hidx hop))

/-! ### Runs of turns -/

/-- One step is a run. -/
theorem run_one {s t : State} (h : step s = .next t) : Host.Core.run core 1 s = .next t := by
  have hstep : core.step s = .next t := h
  simp only [Host.Core.run, hstep]

/-- A run goes on from where another ended. -/
theorem run_add {m n : Nat} {s t u : State} (hm : Host.Core.run core m s = .next t)
    (hn : Host.Core.run core n t = .next u) : Host.Core.run core (m + n) s = .next u := by
  induction m generalizing s with
  | zero => cases hm; rwa [Nat.zero_add]
  | succ m ih =>
    rw [Nat.succ_add]
    simp only [Host.Core.run] at hm ⊢
    split at hm
    next => exact ih hm
    next => cases hm
    next => cases hm

/-- The host's write of a named register is that register's write, answered OKAY (R71, R74). -/
theorem step_write {s : State} {r : Reg} {o : Nat} {v : Word} {rest : List Turn} (hr : s.rst = false)
    (ho : offsetOf r = some o) (hs : s.schedule = .host (.write (s.params.baseAddr + o) .word v) :: rest) :
    step s = writeReg r v (s.answering rest .okay) := by
  rw [step_access hr hs (windowOffset_base_add s.params (offsetOf_aligned ho).1), accessAt_write ho]
  rfl

/-- The block after a command has been issued and has completed with no other access in between: what the command
writes, the bus having answered OKAY, and the turns `rest` still to come. -/
def State.afterCommand (s : State) (i : Instr) (rest : List Turn) : State :=
  (completionEffect i { (s.answering rest .okay).accept i with agent := .sequencer }).finish

/-- Issued on an idle block with its checks passed, a command completes in the sequencer's next turn (R36, R297). -/
theorem run_command {s : State} {i : Instr} {rest : List Turn} (hr : s.rst = false) (hn : i ≠ .nop)
    (hi : issueError i s = none) (hs : s.schedule = .host (cmdWrite s.params (encode i)) :: .sequencer :: rest) :
    Host.Core.run core 2 s = .next (s.afterCommand i rest) := by
  have hwf : i.wf = true := (issueError_eq_none hi).2.1
  have hissue : step s = .next ((s.answering (.sequencer :: rest) .okay).accept i) := by
    rw [step_write (r := .cmd) hr rfl hs]
    simp only [writeReg, issueWord, decode_encode hwf]
    exact exec_accept rfl hn hi
  have hcomplete : step ((s.answering (.sequencer :: rest) .okay).accept i) = .next (s.afterCommand i rest) :=
    exec_sequencer i rfl
  exact run_add (run_one hissue) (run_one hcomplete)

/-- The host's write of an element of DIN on an idle block stores it (R40). -/
theorem step_writeDin {s : State} {i : Fin 4} {v : Word} {rest : List Turn} (hr : s.rst = false) (hb : s.busy = false)
    (hs : s.schedule = .host (.write (s.params.baseAddr + (0x060 + 4 * i.val)) .word v) :: rest) :
    step s = .next { s.answering rest .okay with din := s.din.set i v } := by
  rw [step_write (r := .din i) hr rfl hs]
  simp only [writeReg, writeOperand, State.answering, hb]
  rfl

/-- Setting every column sets the block. -/
theorem set_columns (S X : Columns) : (((S.set 0 X[0]).set 1 X[1]).set 2 X[2]).set 3 X[3] = X := by
  ext i hi : 1
  interval_cases i <;> simp

/-- The four writes of a block leave it in DIN. -/
theorem run_dinWrites {s : State} {X : Columns} {rest : List Turn} (hr : s.rst = false) (hb : s.busy = false)
    (hs : s.schedule = dinWrites s.params X ++ rest) :
    Host.Core.run core 4 s = .next { s.answering rest .okay with din := X } := by
  conv_rhs => rw [← set_columns s.din X]
  exact run_add (run_one (step_writeDin (i := 0) hr hb hs)) <|
    run_add (run_one (step_writeDin (i := 1) hr hb rfl)) <|
    run_add (run_one (step_writeDin (i := 2) hr hb rfl)) (run_one (step_writeDin (i := 3) hr hb rfl))

end Sys2Proof.Machine
end

section
/-! The statements of the cipher and of the commands of the block cipher. -/

namespace Sys2Proof.Claim

open Sys2Proof Sys2Proof.Machine

/-! ### The cipher -/

/-- Settles O33, function by function. -/
theorem roundFunctionsInvert : Obligations.RoundFunctionsInvert := fun S =>
  ⟨invSubBytes_subBytes S, subBytes_invSubBytes S, invShiftRows_shiftRows S, shiftRows_invShiftRows S,
    invMixColumns_mixColumns S, mixColumns_invMixColumns S⟩

/-- Settles O34: each inverse round undoes its round. -/
theorem invCipherUndoesCipher : Obligations.InvCipherUndoesCipher :=
  ⟨fun X W => ⟨invCipher_cipher X W, cipher_invCipher X W⟩,
    fun X W => by simp only [invCipher, invCipherRounds_eq_foldl, invCipherRound], byteAt_invSubBytes⟩

/-- FIPS-197 C.3: the block and the key 00..1f of R186's example. -/
theorem cipher_example :
    cipher #v[0x00112233, 0x44556677, 0x8899aabb, 0xccddeeff]
      (expand #v[0x00010203, 0x04050607, 0x08090a0b, 0x0c0d0e0f, 0x10111213, 0x14151617, 0x18191a1b, 0x1c1d1e1f]) =
      #v[0x8ea2b7ca, 0x516745bf, 0xeafc4990, 0x4b496089] := by decide +kernel

/-- KEYEXP, then ENC, leave an idle block with a valid key, and DOUT the cipher of DIN under the schedule of KEY. -/
theorem run_keyexp_enc {s : State} (h : Idle s) :
    ∃ t : State, Host.Core.run core 4 { s with schedule := commandTurns s.params [.keyexp, .enc] } = .next t ∧
      Idle t ∧ t.params = s.params ∧ t.keyValid = true ∧ t.rk = expand s.key ∧ t.din = s.din ∧
      t.dout = cipher s.din (expand s.key) := by
  obtain ⟨hb, hr, -⟩ := h
  have hkeyexp := run_command (s := { s with schedule := commandTurns s.params [.keyexp, .enc] }) (i := .keyexp) hr
    (by decide) (issueError_keyexp hb) rfl
  exact ⟨_, run_add hkeyexp (run_command (i := .enc) hr (by decide)
    (issueError_of_checks rfl rfl (by decide) nofun fun _ => rfl) rfl), ⟨rfl, hr, rfl⟩, rfl, rfl, rfl, rfl, rfl⟩

/-- A copy of DOUT into DIN, then DEC, leave DOUT the inverse cipher of what it was. -/
theorem run_copy_dec {s : State} (h : Idle s) (hd : s.params.hasDec = true) (hk : s.keyValid = true) :
    ∃ t : State,
      Host.Core.run core 6 { s with schedule := dinWrites s.params s.dout ++ commandTurns s.params [.dec] } =
        .next t ∧
      t.din = s.dout ∧ t.dout = invCipher s.dout s.rk := by
  obtain ⟨hb, hr, -⟩ := h
  have hcopy := run_dinWrites (s := { s with schedule := dinWrites s.params s.dout ++ commandTurns s.params [.dec] })
    hr hb rfl
  exact ⟨_, run_add hcopy (run_command (i := .dec) hr (by decide)
    (issueError_of_checks hb rfl (by decide) (fun _ => hd) fun _ => hk) rfl), rfl, rfl⟩

/-- Settles O35: ENC and DEC read the schedule KEYEXP formed, and DEC reads what ENC left. -/
theorem blockRoundTrip : Obligations.BlockRoundTrip := by
  intro s h hd
  obtain ⟨s1, henc, hidle, hparams, hkey, hrk, hdin, hdout⟩ := run_keyexp_enc h
  obtain ⟨s2, hdec, hcopy, hback⟩ := run_copy_dec hidle (hparams ▸ hd) hkey
  exact ⟨s1, s2, henc, hparams ▸ hdec, hdin, hcopy, by rw [hback, hdout, hrk, invCipher_cipher]⟩

/-! ### ENC and DEC -/

/-- Settles O39: ENC needs a valid key, and its completion reads nothing it writes. -/
theorem encCommand : Obligations.EncCommand := by
  refine ⟨issuedAs_encode (by decide),
    fun s ha hb hk => exec_accepted (by decide) rfl ha hb nofun fun _ => hk,
    fun s ha hb hk => exec_recorded ha (issueError_noKey hb rfl nofun rfl hk),
    fun s ha => exec_sequencer .enc ha, fun s t ha ht => ?_,
    fun X W => by simp only [cipher, cipherRounds_eq_foldl, cipherRound], cipher_example⟩
  obtain rfl := Host.Outcome.next.inj ((exec_sequencer .enc ha).symm.trans ht)
  exact exec_sequencer .enc rfl

/-- Settles O40: DEC needs the inverse, then a valid key, and its example is ENC's undone. -/
theorem decCommand : Obligations.DecCommand := by
  refine ⟨issuedAs_encode (by decide),
    fun s ha hb hd hk => exec_accepted (by decide) rfl ha hb (fun _ => hd) fun _ => hk,
    fun s ha hb hd => exec_recorded ha (issueError_unsupported hb rfl rfl hd),
    fun s ha hb hd hk => exec_recorded ha (issueError_noKey hb rfl (fun _ => hd) rfl hk),
    fun s ha => exec_sequencer .dec ha, ?_⟩
  rw [← cipher_example, invCipher_cipher]

/-! ### The round steps -/

/-- Settles O43, byte by byte. -/
theorem subBytesCommand : Obligations.SubBytesCommand :=
  ⟨issuedAs_encode (by decide),
    fun s ha hb => exec_accepted (by decide) rfl ha hb nofun nofun,
    fun s ha => ⟨subBytes s.st, exec_sequencer .subBytes ha, byteAt_subBytes s.st, subBytes_getElem s.st,
      fun h => by rw [h]; decide, fun h => by rw [h]; decide⟩⟩

/-- Settles O44: the shift moves the bytes of row `r` by `r` columns. -/
theorem shiftRowsCommand : Obligations.ShiftRowsCommand :=
  ⟨issuedAs_encode (by decide),
    fun s ha hb => exec_accepted (by decide) rfl ha hb nofun nofun,
    fun s ha => exec_sequencer .shiftRows ha, byteAt_shiftRows, shiftRows_getElem, shiftRows_replicate,
    fun S => by rw [← invShiftRows_eq_shiftRows_three, invShiftRows_shiftRows], by decide⟩

/-- Settles O45, by the four equations of a column. -/
theorem mixColumnsCommand : Obligations.MixColumnsCommand :=
  ⟨issuedAs_encode (by decide),
    fun s ha hb => exec_accepted (by decide) rfl ha hb nofun nofun,
    fun s ha => exec_sequencer .mixColumns ha,
    fun S c => by simp only [byteAt, mixColumns_getElem, mixColumn, byteOf_zero_word, byteOf_one_word, byteOf_two_word,
      byteOf_three_word, and_self],
    fun _ _ _ => mixColumns_equalBytes, by decide, by decide⟩

/-- Settles O46: a word with ADD_RK's opcode is a command only with RSVD 0 and an index up to 14, and the round key is
four words of the schedule. -/
theorem addRkCommand : Obligations.AddRkCommand := by
  refine ⟨fun n hn => ?_, fun v s _ hb hop hbad => ?_,
    fun n s ha hb => exec_recorded ha (issueError_busy _ hb),
    fun n s hn ha hb hk => exec_accepted (by simp) (wf_addRk hn) ha hb nofun fun _ => hk,
    fun n s hn ha hb hk => exec_recorded ha (issueError_noKey hb (wf_addRk hn) nofun rfl hk),
    fun n s hn ha => ⟨_, exec_sequencer (.addRk n) ha, addRoundKey_getElem s.st s.rk hn⟩,
    fun S W n _ => addRoundKey_addRoundKey S W n, fun S K c => ⟨?_, ?_⟩, by decide +kernel⟩
  · exact ⟨encode_addRk n, encode_addRk n ▸ decode_encode (wf_addRk hn)⟩
  · obtain ⟨why, hwhy⟩ := exists_illegal_of_addRk hop hbad
    exact issueWord_illegal hwhy hb
  · simpa using addRoundKey_expand_getElem S K (n := 0) (by decide) c
  · simpa using addRoundKey_expand_getElem S K (n := 1) (by decide) c

/-- Settles O49: E_UNSUPPORTED is the only error of an inverse step on an idle block. -/
theorem invShiftRowsCommand : Obligations.InvShiftRowsCommand :=
  ⟨issuedAs_encode (by decide),
    fun s ha hb hd => exec_accepted (by decide) rfl ha hb (fun _ => hd) nofun,
    fun s ha hb hd => exec_recorded ha (issueError_unsupported hb rfl rfl hd),
    fun s ha => exec_sequencer .invShiftRows ha, byteAt_invShiftRows,
    fun S => ⟨invShiftRows_shiftRows S, invShiftRows_eq_shiftRows_three S⟩, by decide⟩

/-- Settles O50, by the four equations of a column. -/
theorem invMixColumnsCommand : Obligations.InvMixColumnsCommand :=
  ⟨issuedAs_encode (by decide),
    fun s ha hb hd => exec_accepted (by decide) rfl ha hb (fun _ => hd) nofun,
    fun s ha hb hd => exec_recorded ha (issueError_unsupported hb rfl rfl hd),
    fun s ha => exec_sequencer .invMixColumns ha,
    fun S c => ⟨byteAt_invMixColumns S 0 c, byteAt_invMixColumns S 1 c, byteAt_invMixColumns S 2 c,
      byteAt_invMixColumns S 3 c⟩, invMixColumns_mixColumns,
    fun _ _ _ => invMixColumns_equalBytes, by decide +kernel⟩

end Sys2Proof.Claim
end

section
/-! Several commands in a row (R210): the block once each has completed, and the rounds the step commands make up. -/

namespace Sys2Proof.Machine

open Sys2Proof Sys2Proof.Claim

/-! ### Runs of commands -/

/-- The registers written by the commands, one completion after the other. -/
def completionEffects (cmds : List Instr) (s : State) : State := cmds.foldl (fun s i => completionEffect i s) s

theorem completionEffects_cons (i : Instr) (is : List Instr) (s : State) :
    completionEffects (i :: is) s = completionEffects is (completionEffect i s) := rfl

theorem completionEffects_append (as bs : List Instr) (s : State) :
    completionEffects (as ++ bs) s = completionEffects bs (completionEffects as s) := List.foldl_append

/-- The block when a command has completed: idle with DONE set and OKAY answered, the registers those of `s`, the turns
`rest` still to come. -/
def State.settled (s : State) (rest : List Turn) : State := (s.answering rest .okay).finish

/-- A completion neither reads nor writes what settling changes. -/
theorem completionEffect_settled (i : Instr) (s : State) (rest : List Turn) :
    completionEffect i (s.settled rest) = (completionEffect i s).settled rest := by
  cases i <;> rfl

/-- Issue and completion of a command come to its effect on the registers. -/
theorem afterCommand_eq_settled (s : State) (i : Instr) (rest : List Turn) :
    s.afterCommand i rest = (completionEffect i s).settled rest := by
  cases i <;> rfl

/-- A command of the block cipher that the build has: with a valid key nothing stops its issue on an idle block, and its
completion keeps the key valid. -/
structure CipherCommand (p : Params) (i : Instr) : Prop where
  /-- It is not NOP, which is never accepted (R250), writes no KEY_VALID (R34) and checks no modulus (R262). -/
  inCipher : i ∉ [.nop, .keyexp, .zeroize, .modexp]
  wellFormed : i.wf = true
  hasInverse : needsInverse i = true → p.hasDec = true

section

variable {s : State} {rest : List Turn}

theorem CipherCommand.keyValid {i : Instr} (hi : CipherCommand s.params i) :
    (completionEffect i s).keyValid = s.keyValid := by
  have hne := hi.inCipher
  rw [completionEffect_keyValid, if_neg (by rintro rfl; simp at hne), if_neg (by rintro rfl; simp at hne)]

/-- Issued with a valid key on an idle block, a command of the cipher completes in the sequencer's next turn. -/
theorem CipherCommand.run {i : Instr} (hi : CipherCommand s.params i) (hr : s.rst = false) (hb : s.busy = false)
    (hk : s.keyValid = true) (hs : s.schedule = commandTurns s.params [i] ++ rest) :
    Host.Core.run core 2 s = .next (completionEffect i (s.settled rest)) := by
  obtain ⟨hne, hwf, hinv⟩ := hi
  rw [completionEffect_settled, ← afterCommand_eq_settled]
  exact run_command hr (by rintro rfl; simp at hne)
    (issueError_of_checks hb hwf (by rintro rfl; simp at hne) hinv fun _ => hk) hs

/-- With a valid key, commands of the cipher run one after the other on an idle block, each completing. -/
theorem run_commands {cmds : List Instr} (hne : cmds ≠ []) (hc : ∀ i ∈ cmds, CipherCommand s.params i)
    (hr : s.rst = false) (hb : s.busy = false) (hk : s.keyValid = true)
    (hs : s.schedule = commandTurns s.params cmds ++ rest) :
    Host.Core.run core (2 * cmds.length) s = .next (completionEffects cmds (s.settled rest)) := by
  induction cmds generalizing s with
  | nil => exact absurd rfl hne
  | cons i is ih =>
    have hi := hc i List.mem_cons_self
    rcases eq_or_ne is [] with rfl | his
    · exact hi.run hr hb hk hs
    · have hfirst := hi.run (rest := commandTurns s.params is ++ rest) hr hb hk hs
      have hothers : Host.Core.run core (2 * is.length)
          (completionEffect i (s.settled (commandTurns s.params is ++ rest))) =
            .next (completionEffects is ((completionEffect i s).settled rest)) := by
        rw [completionEffect_settled]
        refine ih his (fun j hj => ?_) ((completionEffect_rst i s).trans hr) rfl (hi.keyValid.trans hk) ?_
        · exact (completionEffect_params i s).symm ▸ hc j (List.mem_cons_of_mem i hj)
        · exact (completionEffect_params i s).symm ▸ rfl
      rw [List.length_cons, Nat.mul_succ, Nat.add_comm, completionEffects_cons, completionEffect_settled]
      exact run_add hfirst hothers

end

/-! ### Rounds -/

/-- The step commands of rounds 1 to `n` make the rounds of the cipher on STATE (R186, R210). -/
theorem completionEffects_encRounds {n : Nat} (h : n < 256) (s : State) :
    completionEffects ((List.range n).flatMap fun k =>
      [.subBytes, .shiftRows, .mixColumns, .addRk (BitVec.ofNat 8 (k + 1))]) s =
    { s with st := cipherRounds s.rk n s.st } := by
  induction n with
  | zero => rfl
  | succ n ih =>
    have hround : (BitVec.ofNat 8 (n + 1)).toNat = n + 1 := Nat.mod_eq_of_lt h
    rw [List.range_succ, List.flatMap_append, completionEffects_append, ih (by omega)]
    simp [completionEffects, completionEffect, cipherRounds, cipherRound, hround]

/-- The step commands of the inverse rounds `n` down to 1 make those rounds on STATE (R187, R210). -/
theorem completionEffects_decRounds {n : Nat} (h : n < 256) (s : State) :
    completionEffects ((List.range n).flatMap fun k =>
      [.addRk (BitVec.ofNat 8 (n - k)), .invMixColumns, .invShiftRows, .invSubBytes]) s =
    { s with st := invCipherRounds s.rk n s.st } := by
  induction n generalizing s with
  | zero => rfl
  | succ n ih =>
    have hround : (BitVec.ofNat 8 (n + 1)).toNat = n + 1 := Nat.mod_eq_of_lt h
    rw [List.range_succ_eq_map, List.flatMap_cons, List.flatMap_map, completionEffects_append]
    simp only [Nat.succ_eq_add_one, Nat.add_sub_add_right]
    rw [ih (by omega)]
    simp [completionEffects, completionEffect, invCipherRounds, invCipherRound, hround]

/-- The step commands of one whole encryption write what ENC writes (R210). -/
theorem completionEffects_encSteps (s : State) : completionEffects encSteps s = completionEffect .enc s := by
  rw [encSteps, completionEffects_append, completionEffects_append, completionEffects_encRounds (by decide)]
  simp [completionEffects, completionEffect, cipher]

/-- The step commands of one whole decryption write what DEC writes (R187, R210). -/
theorem completionEffects_decSteps (s : State) : completionEffects decSteps s = completionEffect .dec s := by
  rw [decSteps, completionEffects_append, completionEffects_append, completionEffects_decRounds (by decide)]
  simp [completionEffects, completionEffect, invCipher]

/-- The step commands of an encryption are commands that any build has. -/
theorem cipherCommand_encSteps (p : Params) : ∀ i ∈ encSteps, CipherCommand p i := by
  have hall : ∀ i ∈ encSteps,
      i ∉ [.nop, .keyexp, .zeroize, .modexp] ∧ i.wf = true ∧ needsInverse i = false := by decide
  intro i hi
  obtain ⟨hcipher, hwf, hinv⟩ := hall i hi
  exact ⟨hcipher, hwf, fun h => by simp [hinv] at h⟩

/-- The step commands of a decryption are commands that a build with the inverse has. -/
theorem cipherCommand_decSteps {p : Params} (hd : p.hasDec = true) : ∀ i ∈ decSteps, CipherCommand p i := by
  have hall : ∀ i ∈ decSteps, i ∉ [.nop, .keyexp, .zeroize, .modexp] ∧ i.wf = true := by decide
  intro i hi
  obtain ⟨hcipher, hwf⟩ := hall i hi
  exact ⟨hcipher, hwf, fun _ => hd⟩

end Sys2Proof.Machine
end

section
/-! The statements of the round-step commands. -/

namespace Sys2Proof.Claim

open Sys2Proof Sys2Proof.Machine

/-- Step commands that write what a whole cipher command writes end in the very state it leaves (R210). -/
theorem run_whole_and_steps {s : State} (h : Idle s) (hk : s.keyValid = true) {whole : Instr} {steps : List Instr}
    (hwhole : CipherCommand s.params whole) (hne : steps ≠ []) (hsteps : ∀ i ∈ steps, CipherCommand s.params i)
    (heffect : ∀ u, completionEffects steps u = completionEffect whole u) :
    Host.Core.run core 2 { s with schedule := commandTurns s.params [whole] } =
        .next (completionEffect whole (s.settled [])) ∧
      Host.Core.run core (2 * steps.length) { s with schedule := commandTurns s.params steps } =
        .next (completionEffect whole (s.settled [])) := by
  obtain ⟨hb, hr, -⟩ := h
  have hrun := run_commands (s := { s with schedule := commandTurns s.params steps }) (rest := []) hne hsteps hr hb hk
    (List.append_nil _).symm
  exact ⟨hwhole.run (s := { s with schedule := commandTurns s.params [whole] }) (rest := []) hr hb hk rfl,
    heffect (s.settled []) ▸ hrun⟩

/-- Settles O36: the step commands write, one after the other, what the whole command writes at once. -/
theorem stepCommandsEqualWholeCipher : Obligations.StepCommandsEqualWholeCipher := by
  refine ⟨fun s h hk => ?_, fun s h hk hd => ?_⟩
  · obtain ⟨henc, hsteps⟩ := run_whole_and_steps (whole := .enc) h hk ⟨by decide, rfl, nofun⟩ (by decide)
      (cipherCommand_encSteps s.params) completionEffects_encSteps
    exact ⟨_, henc, hsteps, rfl, rfl⟩
  · obtain ⟨hdec, hsteps⟩ := run_whole_and_steps h hk ⟨by decide, rfl, fun _ => hd⟩ (by decide)
      (cipherCommand_decSteps hd) completionEffects_decSteps
    exact ⟨_, hdec, hsteps, rfl, rfl⟩

/-- Settles O48: substitution is byte by byte, and the inverse S-box undoes the S-box. -/
theorem invSubBytesCommand : Obligations.InvSubBytesCommand :=
  ⟨issuedAs_encode (by decide),
    fun s ha hb hd => exec_accepted (by decide) rfl ha hb (fun _ => hd) nofun,
    fun s ha hb hd => exec_recorded ha (issueError_unsupported hb rfl rfl hd),
    fun s ha => ⟨invSubBytes s.st, exec_sequencer .invSubBytes ha, byteAt_invSubBytes s.st,
      fun T h => by rw [h, invSubBytes_subBytes], fun h => by rw [h]; decide, fun h => by rw [h]; decide⟩⟩

/-- Settles O42: ST_LOAD passes every check on an idle block. -/
theorem stLoadCommand : Obligations.StLoadCommand :=
  ⟨issuedAs_encode (by decide),
    fun s ha hb => exec_accepted (by decide) rfl ha hb nofun nofun,
    fun s ha => exec_sequencer .stLoad ha⟩

/-- Settles O47: ST_STORE passes every check on an idle block. -/
theorem stStoreCommand : Obligations.StStoreCommand :=
  ⟨issuedAs_encode (by decide),
    fun s ha hb => exec_accepted (by decide) rfl ha hb nofun nofun,
    fun s ha => exec_sequencer .stStore ha⟩

end Sys2Proof.Claim
end

section
/-! Modular exponentiation: the value of the square-and-multiply loop (R231), and the two ends of MODEXP (R232). -/

namespace Sys2Proof.Machine

open Sys2Proof Sys2Proof.Claim

/-! ### The loop -/

/-- On a reduced product `r` so far, the loop multiplies in the power of `x` that its exponent bits name (R231). -/
theorem powModLoop_eq {k e m x r : Nat} (he : e < 2 ^ k) (hr : r % m = r) :
    powModLoop k e m x r = r * x ^ e % m := by
  induction k generalizing e x r with
  | zero =>
    obtain rfl : e = 0 := by simpa using he
    rw [powModLoop, pow_zero, mul_one, hr]
  | succ k ih =>
    have hhalf : e / 2 < 2 ^ k := by omega
    have hsquare : (x * x % m) ^ (e / 2) ≡ x ^ (2 * (e / 2)) [MOD m] := by
      rw [pow_mul, pow_two]
      exact (Nat.mod_modEq (x * x) m).pow (e / 2)
    rw [powModLoop]
    split
    next hodd =>
      rw [ih hhalf (Nat.mod_mod _ m)]
      conv_rhs => rw [← Nat.div_add_mod e 2, hodd, pow_succ', ← mul_assoc]
      exact (Nat.mod_modEq (r * x) m).mul hsquare
    next hodd =>
      rw [ih hhalf hr]
      conv_rhs => rw [← Nat.div_add_mod e 2, Nat.mod_two_ne_one.mp hodd, add_zero]
      exact hsquare.mul_left r

/-- The value of the loop (R231); it needs no `m ≥ 1`, Lean's `n % 0` being `n`. -/
theorem powMod_eq {bits b e m : Nat} (he : e < 2 ^ bits) : powMod bits b e m = b ^ e % m := by
  have hreduced : 1 % m * (b % m) ^ e ≡ 1 * b ^ e [MOD m] := (Nat.mod_modEq 1 m).mul ((Nat.mod_modEq b m).pow e)
  rw [powMod, powModLoop_eq he (Nat.mod_mod 1 m), hreduced, one_mul]

/-- A base divisible by the modulus gives 0 (R234). -/
theorem powMod_of_mod_eq_zero {bits b e m : Nat} (h1 : 1 ≤ e) (he : e < 2 ^ bits) (hb : b % m = 0) :
    powMod bits b e m = 0 := by
  rw [powMod_eq he, Nat.pow_mod, hb, zero_pow (Nat.ne_of_gt h1), Nat.zero_mod]

/-! ### MODEXP -/

section

variable {s t : State}

/-- The one check left to MODEXP on an idle block (R232). -/
theorem issueError_modexp (hb : s.busy = false) :
    issueError .modexp s = if s.modInt = 0 then some .modZero else none := by
  simp [issueError, hb, Instr.wf, needsInverse, needsKey]

theorem exec_modexp_accepted (ha : s.agent = .host) (hb : s.busy = false) (hm : s.modInt ≠ 0) :
    exec .modexp s = .next (accepted .modexp s) :=
  exec_accept ha (by decide) ((issueError_modexp hb).trans (if_neg hm))

theorem exec_modexp_modZero (ha : s.agent = .host) (hb : s.busy = false) (hm : s.modInt = 0) :
    exec .modexp s = .next (recorded .modZero s) :=
  exec_recorded ha ((issueError_modexp hb).trans (if_pos hm))

/-- What a completing MODEXP leaves in RES: the words of the power, the other elements held (R232). -/
def State.modexpRes (s : State) : Vector Word 128 :=
  setInt s.params.mxWords s.res (s.baseInt ^ s.expInt % s.modInt)

theorem exec_modexp_completed (ha : s.agent = .sequencer) :
    exec .modexp s = .next (completed { s with res := s.modexpRes }) := by
  rw [exec_sequencer .modexp ha, completionEffect, powMod_eq (e := s.expInt) (intOf_lt s.exp s.params.mxWords)]
  rfl

theorem res_of_exec_modexp (ha : s.agent = .sequencer) (h : exec .modexp s = .next t) : t.res = s.modexpRes := by
  obtain rfl := Host.Outcome.next.inj ((exec_modexp_completed ha).symm.trans h)
  rfl

/-- The power, reduced, fits in RES: no bit is lost (R233). -/
theorem intOf_modexpRes (hp : s.params.Legal) (hm : s.modInt ≠ 0) :
    intOf s.modexpRes s.params.mxWords = s.baseInt ^ s.expInt % s.modInt := by
  obtain ⟨-, hwords⟩ := hp
  have hlt : s.baseInt ^ s.expInt % s.modInt < 2 ^ (32 * s.params.mxWords) :=
    (Nat.mod_lt _ (Nat.pos_of_ne_zero hm)).trans (intOf_lt s.mod s.params.mxWords)
  rw [State.modexpRes, intOf_setInt le_rfl hwords, Nat.mod_eq_of_lt hlt]

/-- A MODEXP whose base is the result of another under the same modulus: the exponents multiply (R236). -/
theorem power_of_modexpRes {u : State} (hp : s.params.Legal) (hm : s.modInt ≠ 0)
    (hbase : u.baseInt = intOf s.modexpRes s.params.mxWords) (hmod : u.modInt = s.modInt) :
    u.baseInt ^ u.expInt % u.modInt = s.baseInt ^ (s.expInt * u.expInt) % s.modInt := by
  rw [hbase, hmod, intOf_modexpRes hp hm, ← Nat.pow_mod, pow_mul]

end

end Sys2Proof.Machine
end

section
/-! The statements of modular exponentiation. -/

namespace Sys2Proof.Claim

open Sys2Proof Sys2Proof.Machine

/-- Settles O51: the completion writes the words of the power, which is below the modulus and so fits. -/
theorem modexpCommand : Obligations.ModexpCommand := by
  refine ⟨issuedAs_encode (by decide), fun _ => exec_modexp_accepted, fun _ => exec_modexp_modZero,
    fun s ha hp hm => ⟨s.modexpRes, exec_modexp_completed ha, intOf_modexpRes hp hm, ?_, ?_,
      fun i hi => setInt_getElem_of_le hi _ _, fun hbase hexp hmod => ?_⟩⟩
  · rw [intOf_modexpRes hp hm]
    exact Nat.mod_lt _ (Nat.pos_of_ne_zero hm)
  · exact Nat.le_sub_one_of_lt (intOf_lt s.mod s.params.mxWords)
  · have hfirst : (0 : Fin 128).val < s.params.mxWords := hp.1
    refine (setInt_getElem _ _ _ 0).trans ?_
    rw [if_pos hfirst, State.baseInt, State.expInt, State.modInt, hbase, hexp, hmod]
    decide

/-- Settles O52, by induction on the number of exponent bits (`powModLoop_eq`). -/
theorem powModIsExactPower : Obligations.PowModIsExactPower := fun _ _ _ _ _ he => powMod_eq he

/-- Settles O53: each row is a fact about `b ^ e % m`. -/
theorem powModCornerCases : Obligations.PowModCornerCases := by
  refine ⟨fun _ => exec_modexp_modZero, fun bits b e he => ?_, fun bits b m hm => ?_,
    fun bits e m _ h1 he => powMod_of_mod_eq_zero h1 he (Nat.zero_mod m), fun bits e m _ he => ?_,
    fun bits b e m _ he => ?_, fun bits b e m _ h1 he => powMod_of_mod_eq_zero h1 he, fun n hn => ?_, by decide⟩
  · rw [powMod_eq he, Nat.mod_one]
  · rw [powMod_eq (Nat.two_pow_pos bits), pow_zero, Nat.mod_eq_of_lt hm]
  · rw [powMod_eq he, one_pow]
  · rw [powMod_eq he, Nat.pow_mod]
  · have hpos : 1 < 2 ^ (32 * n) := Nat.one_lt_two_pow (by omega)
    exact powMod_of_mod_eq_zero (by omega) (by omega) (Nat.mod_self _)

/-- Settles O54: each side's second result is the power of `g` to the product of the two exponents. -/
theorem keyAgreementIsSymmetric : Obligations.KeyAgreementIsSymmetric := by
  intro s1 s2 s3 s4 t1 t2 t3 t4 h1 h2 h3 h4 ha1 ha2 ha3 ha4 hp hp2 hp3 hp4 hm hm2 hm3 hm4 hg hb3 he3 hb4 he4
  rw [res_of_exec_modexp ha1 h1] at hb3
  rw [res_of_exec_modexp ha2 h2, ← hp2] at hb4
  have hpow3 : s3.baseInt ^ s3.expInt % s3.modInt = s1.baseInt ^ (s1.expInt * s2.expInt) % s1.modInt := by
    rw [power_of_modexpRes hp hm hb3 hm3, he3]
  have hpow4 : s4.baseInt ^ s4.expInt % s4.modInt = s1.baseInt ^ (s1.expInt * s2.expInt) % s1.modInt := by
    rw [power_of_modexpRes (hp2 ▸ hp) (hm2 ▸ hm) hb4 (hm4.trans hm2.symm), he4, hg, hm2, mul_comm s2.expInt]
  rw [res_of_exec_modexp ha3 h3, res_of_exec_modexp ha4 h4]
  refine ⟨fun i hi => ?_, ?_, ?_⟩
  · rw [State.modexpRes, State.modexpRes, hpow3, hpow4, setInt_getElem, setInt_getElem, hp3, hp4, if_pos hi, if_pos hi]
  · rw [← hp3, intOf_modexpRes (hp3 ▸ hp) (hm3 ▸ hm), hpow3]
  · rw [← hp4, intOf_modexpRes (hp4 ▸ hp) (hm4 ▸ hm), hpow4]

end Sys2Proof.Claim
end

section
/-! The control commands: what ZEROIZE leaves (R252), word by word and against the reset state, and the issue of NOP
(R250). -/

namespace Sys2Proof.Machine

open Sys2Proof Sys2Proof.Claim

/-! ### Integers set to zero -/

theorem setInt_zero_getElem_of_lt {n : Nat} {i : Fin 128} (h : i.val < n) (v : Vector Word 128) :
    (setInt n v 0)[i] = 0 := by
  rw [setInt_getElem, if_pos h, Nat.zero_shiftRight]
  rfl

/-- Where the elements that do not exist hold 0, setting an integer to 0 leaves 0 everywhere (R48). -/
theorem setInt_zero_eq_replicate {n : Nat} {v : Vector Word 128} (h : ∀ i : Fin 128, n ≤ i.val → v[i] = 0) :
    setInt n v 0 = Vector.replicate 128 0 := by
  refine Vector.ext fun j hj => ?_
  rw [Vector.getElem_replicate]
  obtain hlt | hle := Nat.lt_or_ge j n
  · exact setInt_zero_getElem_of_lt (i := ⟨j, hj⟩) hlt v
  · exact (setInt_getElem_of_le (i := ⟨j, hj⟩) hle v 0).trans (h ⟨j, hj⟩ hle)

/-! ### The block once ZEROIZE has completed -/

section

variable {s : State}

theorem modInt_clearSecrets (hp : s.params.Legal) : (clearSecrets s).modInt = 0 := by
  obtain ⟨-, hwords⟩ := hp
  exact (intOf_setInt le_rfl hwords s.mod 0).trans (Nat.zero_mod _)

/-- Where the elements that do not exist hold 0, ZEROIZE leaves the reset state but for CTRL, DONE and the error record
(R252). -/
theorem finish_clearSecrets_eq_resetWith
    (h : ∀ i : Fin 128, s.params.mxWords ≤ i.val →
      s.base[i] = 0 ∧ s.exp[i] = 0 ∧ s.mod[i] = 0 ∧ s.res[i] = 0) :
    (clearSecrets s).finish =
      { State.resetWith s.params with
        irqEn := s.irqEn, done := true, err := s.err, errCode := s.errCode,
        rst := s.rst, schedule := s.schedule, resp := s.resp } := by
  simp only [imp_and, forall_and] at h
  obtain ⟨hbase, hexp, hmod, hres⟩ := h
  simp only [clearSecrets, State.finish, State.resetWith, setInt_zero_eq_replicate hbase,
    setInt_zero_eq_replicate hexp, setInt_zero_eq_replicate hmod, setInt_zero_eq_replicate hres]

/-- With no error recorded, STATUS shows DONE alone (R252). -/
theorem statusWord_finish_clearSecrets (herr : s.err = false) (hcode : s.errCode = .none) :
    (clearSecrets s).finish.statusWord = 0x00000002 := by
  simp only [State.statusWord, clearSecrets, State.finish, herr, hcode]
  decide

end

/-! ### NOP, and STATUS from reset -/

/-- The word of a well-formed command issues that command (R105, R262). -/
theorem issueWord_encode {i : Instr} (hwf : i.wf = true) (s : State) : issueWord (encode i) s = exec i s := by
  simp only [issueWord, decode_encode hwf]

/-- NOP passes every check on an idle block, and its issue changes nothing (R250). -/
theorem exec_nop_idle {s : State} (ha : s.agent = .host) (hb : s.busy = false) : exec .nop s = .next s := by
  have hchecks : issueError .nop s = none := issueError_of_checks hb rfl (by decide) nofun nofun
  simp only [exec_host .nop ha, issued, hchecks, if_true]

/-- STATUS is 0 from reset, whatever the build (R48). -/
theorem statusWord_resetWith (p : Params) : (State.resetWith p).statusWord = 0 := by
  simp only [State.statusWord, State.resetWith]
  decide

end Sys2Proof.Machine
end

section
/-! The statements of the control commands. -/

namespace Sys2Proof.Claim

open Sys2Proof Sys2Proof.Machine

/-- Settles O37: NOP's word decodes to NOP, which an idle block's checks let pass. -/
theorem nopCommand : Obligations.NopCommand :=
  ⟨issuedAs_encode (by decide), fun _ => exec_nop_idle,
    fun p => ⟨State.resetWith p, (issueWord_encode (i := .nop) rfl _).trans (exec_nop_idle rfl rfl),
      statusWord_resetWith p⟩⟩

/-- Settles O41: the completion clears word by word, and leaves a block with no valid key and the modulus 0. -/
theorem zeroizeCommand : Obligations.ZeroizeCommand := by
  refine ⟨issuedAs_encode (by decide),
    fun s ha hb => exec_accepted (by decide) rfl ha hb nofun nofun,
    fun s ha => ⟨_, _, _, _, exec_sequencer .zeroize ha, fun i => ⟨fun hi => ?_, fun hi => ?_⟩⟩,
    fun s ha hmissing => ?_, fun s t ha ht => ?_⟩
  · simp only [setInt_zero_getElem_of_lt hi, and_self]
  · exact completionEffect_unimplemented .zeroize hi
  · rw [exec_sequencer .zeroize ha, completionEffect, finish_clearSecrets_eq_resetWith hmissing]
  · obtain rfl := Host.Outcome.next.inj ((exec_sequencer .zeroize ha).symm.trans ht)
    exact ⟨statusWord_finish_clearSecrets,
      exec_recorded rfl (issueError_noKey rfl rfl nofun rfl rfl),
      fun hd => exec_recorded rfl (issueError_noKey rfl rfl (fun _ => hd) rfl rfl),
      fun n hn => exec_recorded rfl (issueError_noKey rfl (wf_addRk hn) nofun rfl rfl),
      fun hp => exec_modexp_modZero rfl rfl (modInt_clearSecrets hp)⟩

end Sys2Proof.Claim
end

section
/-! The error record and the interrupt output: what a raised error changes (R263), which actions raise one (R261), the
issue checks of a decoded command (R262), and what `irq` follows (R270, R271). -/

namespace Sys2Proof.Machine

open Sys2Proof Sys2Proof.Claim

/-! ### Recording an error -/

/-- With none recorded, an error sets ERR and ERR_CODE alone (R263). -/
theorem raiseError_of_clear {s : State} (h : s.err = false) (e : ErrCode) :
    s.raiseError e = { s with err := true, errCode := e } := by
  rw [raiseError_eq_recorded, recorded, if_neg (by simp [h])]

/-- A second error is lost (R263). -/
theorem raiseError_of_recorded {s : State} (h : s.err = true) (e : ErrCode) : s.raiseError e = s := by
  rw [raiseError_eq_recorded, recorded, if_pos h]

/-! ### The actions that raise an error -/

/-- The registers whose write R299 refuses while a command is in flight: KEY, DIN and the elements of BASE, EXP and MOD
that exist in the build. -/
def IsOperand (p : Params) : Reg → Prop
  | .key _ | .din _ => True
  | .base i | .exp i | .mod i => i.val < p.mxWords
  | _ => False

/-- Where the operands stand in the window (R72). -/
theorem offset_of_isOperand {p : Params} {off : BitVec 12} (ha : off.toNat % 4 = 0) (h : IsOperand p (locate off)) :
    (0x040 ≤ off.toNat ∧ off.toNat < 0x070) ∨
      (0x200 ≤ off.toNat ∧ off.toNat < 0x800 ∧ off.toNat / 4 % 128 < p.mxWords) := by
  cases hl : locate off with
  | key i | din i =>
    have hoff := toNat_of_locate ha hl rfl
    omega
  | base i | exp i | mod i =>
    have hoff := toNat_of_locate ha hl rfl
    rw [hl] at h
    change i.val < p.mxWords at h
    omega
  | _ => rw [hl] at h; exact h.elim

/-- A write to register `r` may raise error `e`: it is a command word, or an operand written in flight (R261, R299). -/
def Raises (s : State) (r : Reg) (e : ErrCode) : Prop :=
  e ≠ .none ∧ (r = .cmd ∨ (IsOperand s.params r ∧ s.busy = true ∧ e = .busy))

section

variable {s t : State}

/-- An operand write raises an error only by being refused in flight (R299). -/
theorem writeOperand_raises {store : State → State} (hstore : (store s).err = s.err) (h0 : s.err = false)
    (h1 : (writeOperand store s).err = true) : s.busy = true ∧ writeOperand store s = s.raiseError .busy := by
  unfold writeOperand at h1 ⊢
  split at h1
  next hb => exact ⟨hb, if_pos hb⟩
  next => exact flag_kept (hstore.trans h0) h1

/-- A write to an element raises an error only where the element exists (R44, R299). -/
theorem writeElem_raises {i : Fin 128} {store : State → State} (hstore : (store s).err = s.err) (h0 : s.err = false)
    (h1 : (writeElem i store s).err = true) :
    i.val < s.params.mxWords ∧ s.busy = true ∧ writeElem i store s = s.raiseError .busy := by
  unfold writeElem at h1 ⊢
  split at h1
  next hx =>
    rw [if_pos hx]
    exact ⟨hx, writeOperand_raises hstore h0 h1⟩
  next => exact flag_kept h0 h1

/-- An operand write that raises an error records E_BUSY and nothing else. -/
theorem raises_of_operand {r : Reg} (hr : IsOperand s.params r) (h : s.busy = true ∧ t = s.raiseError .busy) :
    ∃ e, Raises s r e ∧ t = s.raiseError e := by
  obtain ⟨hb, ht⟩ := h
  exact ⟨.busy, ⟨by decide, .inr ⟨hr, hb, rfl⟩⟩, ht⟩

/-- A register write that raises an error does nothing else (R261, R264). -/
theorem writeReg_raises {r : Reg} {v : Word} (ha : s.agent = .host) (h : writeReg r v s = .next t)
    (h0 : s.err = false) (h1 : t.err = true) : ∃ e, Raises s r e ∧ t = s.raiseError e := by
  cases r with
  | cmd =>
    cases writeReg_cases ha h with
    | error _ _ e he => exact ⟨e, ⟨he, .inl rfl⟩, rfl⟩
    | ignored | accept => exact flag_kept h0 h1
  | key | din => cases h; exact raises_of_operand trivial (writeOperand_raises rfl h0 h1)
  | base | exp | mod =>
    cases h
    obtain ⟨hx, hraise⟩ := writeElem_raises rfl h0 h1
    exact raises_of_operand hx hraise
  | status => cases h; simp [h0] at h1
  | ctrl | id | cfg | dout | st | rk | res | reserved => cases h; exact flag_kept h0 h1

/-- A step that takes ERR from 0 to 1 is a legal write inside the window that raises an error, and does nothing but
answer OKAY and record it (R261, R264). -/
theorem step_raises (h : step s = .next t) (h0 : s.err = false) (h1 : t.err = true) :
    ∃ addr v rest off e, s.schedule = .host (.write addr .word v) :: rest ∧ windowOffset s.params addr = some off ∧
      off.toNat % 4 = 0 ∧ Raises s (locate off) e ∧ t = (s.answering rest .okay).raiseError e := by
  cases step_cases h with
  | reset _ _ _ ht => subst ht; cases h1
  | complete _ _ _ _ _ ht => simp [ht, h0] at h1
  | idle _ _ _ ht | outside _ _ _ _ ht => subst ht; exact flag_kept h0 h1
  | access a rest off hs hw _ ht =>
    cases a with
    | read =>
      simp only [accessAt] at ht
      split at ht <;> cases ht <;> exact flag_kept h0 h1
    | write addr size v =>
      simp only [accessAt] at ht
      split at ht
      next hl =>
        obtain ⟨rfl, hal⟩ := hl
        obtain ⟨e, hraises, ht⟩ := writeReg_raises (s := s.answering rest .okay) rfl ht h0 h1
        exact ⟨addr, v, rest, off, e, hs, hw, hal, hraises, ht⟩
      next => cases ht; exact flag_kept h0 h1

end

/-! ### The issue checks of a decoded command -/

theorem needsInverse_iff {i : Instr} :
    needsInverse i = true ↔ i ∈ [.dec, .invSubBytes, .invShiftRows, .invMixColumns] := by
  cases i <;> simp [needsInverse]

theorem needsKey_iff {i : Instr} : needsKey i = true ↔ i = .enc ∨ i = .dec ∨ ∃ n, i = .addRk n := by
  cases i <;> simp [needsKey]

/-- On an idle block the checks left to a well-formed command are those of the build, the key and the modulus (R262). -/
theorem issueError_idle {i : Instr} {s : State} (hb : s.busy = false) (hwf : i.wf = true) :
    issueError i s =
      if i ∈ [.dec, .invSubBytes, .invShiftRows, .invMixColumns] ∧ s.params.hasDec = false then some .unsupported
      else if (i = .enc ∨ i = .dec ∨ ∃ n, i = .addRk n) ∧ s.keyValid = false then some .noKey
      else if i = .modexp ∧ intOf s.mod s.params.mxWords = 0 then some .modZero
      else none := by
  rw [issueError, if_neg (by simp [hb]), if_neg (by simp [hwf])]
  refine if_congr ?_ rfl (if_congr ?_ rfl rfl)
  · rw [needsInverse_iff, Bool.not_eq_true]
  · rw [needsKey_iff, Bool.not_eq_true]

/-- With every check passed NOP does nothing and any other command is accepted, KEYEXP clearing KEY_VALID (R36, R262). -/
theorem issued_of_passed {i : Instr} {s : State} (h : issueError i s = none) :
    issued i s =
      if i = .nop then s
      else if i = .keyexp then { accepted .keyexp s with keyValid := false }
      else accepted i s := by
  simp only [issued, h, State.accept, accepted]
  congr 1
  split
  next hk => rw [hk]
  next => rfl

/-- On an idle block the first check that fails decides what a well-formed command's issue does (R262). -/
theorem issued_idle {i : Instr} {s : State} (hb : s.busy = false) (hwf : i.wf = true) :
    issued i s =
      if i ∈ [.dec, .invSubBytes, .invShiftRows, .invMixColumns] ∧ s.params.hasDec = false then
        recorded .unsupported s
      else if (i = .enc ∨ i = .dec ∨ ∃ n, i = .addRk n) ∧ s.keyValid = false then recorded .noKey s
      else if i = .modexp ∧ intOf s.mod s.params.mxWords = 0 then recorded .modZero s
      else if i = .nop then s
      else if i = .keyexp then { accepted .keyexp s with keyValid := false }
      else accepted i s := by
  have hchecks := issueError_idle hb hwf
  split_ifs at hchecks with hinv hkey hmod
  · rw [issued_of_issueError hchecks, if_pos hinv]
  · rw [issued_of_issueError hchecks, if_neg hinv, if_pos hkey]
  · rw [issued_of_issueError hchecks, if_neg hinv, if_neg hkey, if_pos hmod]
  · rw [issued_of_passed hchecks, if_neg hinv, if_neg hkey, if_neg hmod]

/-! ### The interrupt output -/

@[simp] theorem getLsbD_statusWord_one (s : State) : s.statusWord.getLsbD 1 = s.done := by
  simp only [State.statusWord, BitVec.getLsbD_append]
  simp

@[simp] theorem getLsbD_statusWord_three (s : State) : s.statusWord.getLsbD 3 = s.err := by
  simp only [State.statusWord, BitVec.getLsbD_append]
  simp

/-- A register write ends no command. -/
theorem busy_of_writeCase {s t : State} {r : Reg} {v : Word} (hc : WriteCase s r v t) (hb : s.busy = true) :
    t.busy = true := by
  cases hc with
  | accept => rfl
  | _ => exact hb

/-- A step that ends a command without a reset is its completion: DONE is set and IRQ_EN kept (R297). -/
theorem done_of_completes {s t : State} (h : step s = .next t) (hc : Completes s t) (hreset : ¬ ResetsNext s) :
    t.done = true ∧ t.irqEn = s.irqEn := by
  obtain ⟨hb, hb'⟩ := hc
  cases step_effect h with
  | reset _ _ hs => exact absurd hs hreset
  | complete _ _ _ _ _ ht => subst ht; simp
  | pass _ ht | answer _ _ _ ht => subst ht; exact flag_kept hb hb'
  | write _ _ _ _ _ hw => exact flag_kept (busy_of_writeCase hw hb) hb'

/-- The sequencer's turn on an idle block only takes the turn (R278). -/
theorem step_sequencer_idle {s : State} {rest : List Turn} (hs : s.schedule = .sequencer :: rest)
    (hb : s.busy = false) : step s = .next { s with schedule := rest } := by
  simp [step, hs, takeTurn, sequencerTurn, hb]

end Sys2Proof.Machine
end

section
/-! The statements of the error record and of the interrupt output. -/

namespace Sys2Proof.Claim

open Sys2Proof Sys2Proof.Machine

/-! ### Errors -/

/-- Settles O8: BUSY comes before decoding, a decoded command has the checks of an idle block left, and acceptance
clears KEY_VALID for KEYEXP alone. -/
theorem issueChecksInOrder : Obligations.IssueChecksInOrder := by
  refine ⟨fun v s ha => ?_, fun s _ hb _ => issueWord_illegal (why := .roundKeyIndex) (by decide) hb,
    fun s ha hb _ hd =>
      (issueWord_encode (i := .dec) rfl s).trans (exec_recorded ha (issueError_unsupported hb rfl rfl hd))⟩
  rw [issueWord_host v ha]
  cases hb : s.busy with
  | true =>
    cases decode v with
    | illegal => simp [raiseError_eq_recorded]
    | command i => simp [issued_of_issueError (issueError_busy i hb)]
  | false =>
    cases hd : decode v with
    | illegal => simp [raiseError_eq_recorded]
    | command i =>
      obtain ⟨hwf, -⟩ := wf_and_encode_of_decode hd
      exact congrArg Host.Outcome.next (issued_idle hb hwf)

/-- Settles O9, by whether an error is recorded already. -/
theorem firstErrorIsKept : Obligations.FirstErrorIsKept :=
  ⟨fun e _ h => raiseError_of_clear h e, fun e _ h => raiseError_of_recorded h e,
    fun _ e' _ => raiseError_of_recorded rfl e'⟩

/-- Settles O10: the step is a write that raises an error and does nothing else. -/
theorem errorsArePrecise : Obligations.ErrorsArePrecise := by
  intro s t turn rest hs hstep h0 h1
  obtain ⟨_, _, rest', _, e, hs', -, -, ⟨he, -⟩, ht⟩ := step_raises hstep h0 h1
  obtain ⟨-, rfl⟩ := List.cons.inj (hs.symm.trans hs')
  rw [raiseError_of_clear (s := s.answering rest .okay) h0] at ht
  subst ht
  exact ⟨he, rfl⟩

/-- Settles O11: the write that raises the error stands at CMD or, in flight, at an operand. -/
theorem onlyTheseActionsRaise : Obligations.OnlyTheseActionsRaise := by
  intro s t hstep h0 h1
  obtain ⟨addr, v, rest, off, _, hs, hw, hal, ⟨-, hwhere⟩, ht⟩ := step_raises hstep h0 h1
  refine ⟨addr, v, rest, off, hs, hw, hal, hwhere.imp (fun hcmd => ?_) fun ⟨hop, hb, he⟩ => ?_⟩
  · exact toNat_of_locate hal hcmd rfl
  · rw [raiseError_of_clear (s := s.answering rest .okay) h0] at ht
    subst ht
    exact ⟨hb, he, offset_of_isOperand hal hop⟩

/-! ### The interrupt output -/

/-- Settles O21, by the sequencer's turn on an idle block. -/
theorem idleSequencerHoldsEverything : Obligations.IdleSequencerHoldsEverything := fun _ _ => step_sequencer_idle

/-- Settles O22, by the bits of CTRL and STATUS. -/
theorem interruptOutput : Obligations.InterruptOutput := by
  intro s
  simp only [State.readReg, ctrlWord_irqEn, getLsbD_statusWord_one, getLsbD_statusWord_three, State.irq]

/-- Settles O23: a completion sets DONE, and the two writes act on the sources of `irq` alone. -/
theorem interruptFollowsItsSources : Obligations.InterruptFollowsItsSources := by
  refine ⟨fun s t hirq hstep hb hb' hturn => ?_, fun s => ⟨s.writeStatus 0x0000000A, rfl, ?_, rfl⟩,
    fun s => ⟨s.writeCtrl 0, rfl, ?_, rfl, rfl⟩, fun s hsrc => ⟨s.writeCtrl 1, rfl, ?_⟩⟩
  · obtain ⟨hdone, hkept⟩ := done_of_completes hstep ⟨hb, hb'⟩ fun ⟨b, rest, hs⟩ => hturn b rest hs
    simp [State.irq, hdone, hkept, hirq]
  · simp [State.irq]
  · simp [State.irq]
  · simpa [State.irq] using hsrc

end Sys2Proof.Claim
end

section
/-! A command in flight, turn by turn: the step that completes it (R297), the host's steps that leave it in flight, and
the end of a WAIT (R108, R304). -/

namespace Sys2Proof.Machine

open Sys2Proof

section

variable {s : State} {rest : List Turn}

/-! ### The completing step -/

/-- A step that is the sequencer's by its turn, or because no turn is left, is the sequencer's turn (log 1). -/
theorem step_of_sequencersTurn (hq : SequencersTurn s rest) : step s = sequencerTurn { s with schedule := rest } := by
  obtain hs | ⟨hs, rfl⟩ := hq
  · simp only [step, hs, takeTurn]
  · simp only [step, hs]
    rw [← hs]

/-- In flight, the sequencer's step is `exec` of the pending command (R297). -/
theorem step_completes_pending {i : Instr} (hq : SequencersTurn s rest) (hb : s.busy = true)
    (hi : s.pending = some i) : step s = exec i { s with schedule := rest, agent := .sequencer } := by
  simp only [step_of_sequencersTurn hq, sequencerTurn, hb, hi, if_true]

/-- From the invariant, the sequencer's step ends the command in flight with DONE set, outside reset (R36, R297). -/
theorem Invariant.step_completes (h : Invariant s) (hb : s.busy = true) (hq : SequencersTurn s rest) :
    ∃ t, step s = .next t ∧ t.busy = false ∧ t.done = true ∧ t.rst = false := by
  obtain ⟨i, hi⟩ := Option.isSome_iff_exists.mp (h.pendingIffBusy.trans hb)
  refine ⟨_, (step_completes_pending hq hb hi).trans (exec_sequencer i rfl), rfl, rfl, ?_⟩
  simpa using h.rst_of_busy hb

/-! ### The host's steps in flight -/

/-- A register write takes no turn. -/
theorem schedule_of_writeCase {t : State} {r : Reg} {v : Word} (hc : WriteCase s r v t) : t.schedule = s.schedule := by
  cases hc <;> rfl

/-- An access in the host's hands ends no command and takes no turn. -/
theorem accessAt_inFlight {t : State} {off : BitVec 12} {a : Access} (ha : s.agent = .host) (hb : s.busy = true)
    (h : accessAt off a s = .next t) : t.busy = true ∧ t.schedule = s.schedule := by
  cases a with
  | read =>
    simp only [accessAt] at h
    split at h <;> cases h <;> exact ⟨hb, rfl⟩
  | write addr size v =>
    simp only [accessAt] at h
    split at h
    next =>
      have hc := writeReg_cases (s := s.respond .okay) ha h
      exact ⟨busy_of_writeCase hc hb, (schedule_of_writeCase hc).trans rfl⟩
    next => cases h; exact ⟨hb, rfl⟩

/-- Outside reset, a host's step in flight goes on, takes its turn and leaves the command in flight (R296). -/
theorem step_host_inFlight {a : Access} (hs : s.schedule = .host a :: rest) (hr : s.rst = false)
    (hb : s.busy = true) : ∃ t, step s = .next t ∧ t.busy = true ∧ t.schedule = rest := by
  cases hw : windowOffset s.params a.addr with
  | none => exact ⟨_, step_outside hs hw, hb, rfl⟩
  | some off =>
    obtain ⟨t, ht⟩ := accessAt_next off a { s with schedule := rest, agent := .host }
    exact ⟨t, (step_access hr hs hw).trans ht,
      accessAt_inFlight (s := { s with schedule := rest, agent := .host }) rfl hb ht⟩

/-- With no reset to come, a command in flight completes within the turns scheduled and one more (R298; log 1). -/
theorem Invariant.run_completes (h : Invariant s) (hb : s.busy = true) (hreset : ∀ b, Turn.reset b ∉ s.schedule) :
    ∃ n t, n ≤ s.schedule.length + 1 ∧ Host.Core.run core n s = .next t ∧ t.busy = false ∧ t.done = true := by
  induction hs : s.schedule generalizing s with
  | nil =>
    obtain ⟨t, ht, hbusy, hdone, -⟩ := h.step_completes hb (.inr ⟨hs, rfl⟩)
    exact ⟨1, t, by simp, run_one ht, hbusy, hdone⟩
  | cons turn rest ih =>
    cases turn with
    | sequencer =>
      obtain ⟨t, ht, hbusy, hdone, -⟩ := h.step_completes hb (.inl hs)
      exact ⟨1, t, by simp, run_one ht, hbusy, hdone⟩
    | reset b => exact absurd (by simp [hs]) (hreset b)
    | host a =>
      obtain ⟨u, hu, hbusy, hrest⟩ := step_host_inFlight hs (h.rst_of_busy hb) hb
      have hreset' : ∀ b, Turn.reset b ∉ u.schedule := fun b hmem => hreset b (by simp [hs, ← hrest, hmem])
      obtain ⟨n, t, hn, hrun, ht⟩ := ih (h.of_step hu) hbusy hreset' hrest
      exact ⟨1 + n, t, by simp only [List.length_cons]; omega, run_add (run_one hu) hrun, ht⟩

end

/-! ### A WAIT -/

namespace HostRun

variable {r r' : HostRun} {rest : List HostOp}

/-- A run goes on from where its first draw ended. -/
theorem run_cons {d : Draw} (h : r.draw d = .next r') (ds : List Draw) : r.run (d :: ds) = r'.run ds := by
  simp only [run, h]

/-- The sequencer's draw is its step of the block. -/
theorem draw_sequencer {b : State} (h : step { r.block with schedule := .sequencer :: r.block.schedule } = .next b) :
    r.draw .sequencer = .next { r with block := b } := by
  simp only [draw, turn, h, advance]

/-- On an idle block a WAIT ends at its first read, which leaves BUSY and DONE as they are (R304). -/
theorem draw_wait_idle (ht : r.todo = .waitIdle :: rest) (hr : r.block.rst = false) (hb : r.block.busy = false) :
    ∃ r', r.draw .host = .next r' ∧ r'.todo = rest ∧ r'.block.busy = false ∧ r'.block.done = r.block.done :=
  ⟨_, draw_wait ht hr, by simp [hb], hb, rfl⟩

/-- In flight a WAIT's read leaves the WAIT before the host and the command in flight (R108). -/
theorem draw_wait_inFlight (ht : r.todo = .waitIdle :: rest) (h : Invariant r.block) (hb : r.block.busy = true) :
    ∃ r', r.draw .host = .next r' ∧ r'.todo = .waitIdle :: rest ∧ Invariant r'.block ∧ r'.block.busy = true :=
  ⟨_, draw_wait ht (h.rst_of_busy hb), by simp [hb, ht],
    h.of_answering (h.rst_of_busy hb) r.block.schedule _, hb⟩

/-- The completion and one read after it end a WAIT (R304). -/
theorem run_wait_completion (ht : r.todo = .waitIdle :: rest) (h : Invariant r.block) (hb : r.block.busy = true) :
    ∃ r', r.run [.sequencer, .host] = .next r' ∧ r'.todo = rest ∧ r'.block.busy = false ∧ r'.block.done = true := by
  obtain ⟨b, hstep, hbusy, hdone, hrst⟩ :=
    (h.of_schedule (.sequencer :: r.block.schedule)).step_completes hb (.inl rfl)
  obtain ⟨r', hdraw, htodo, hbusy', hdone'⟩ := draw_wait_idle (r := { r with block := b }) ht hrst hbusy
  refine ⟨r', ?_, htodo, hbusy', hdone'.trans hdone⟩
  rw [run_cons (draw_sequencer hstep), run_cons hdraw, run]

/-- In flight, after any number of reads the completion and one more read end a WAIT (R108, R304). -/
theorem run_wait (n : Nat) (ht : r.todo = .waitIdle :: rest) (h : Invariant r.block) (hb : r.block.busy = true) :
    ∃ r', r.run (List.replicate n .host ++ [.sequencer, .host]) = .next r' ∧
      r'.todo = rest ∧ r'.block.busy = false ∧ r'.block.done = true := by
  induction n generalizing r with
  | zero => exact run_wait_completion ht h hb
  | succ n ih =>
    obtain ⟨u, hdraw, htodo, hinv, hbusy⟩ := draw_wait_inFlight ht h hb
    rw [List.replicate_succ, List.cons_append, run_cons hdraw]
    exact ih htodo hinv hbusy

end HostRun

end Sys2Proof.Machine
end

section
/-! The statements of reset, of the step relation and of completion. -/

namespace Sys2Proof.Claim

open Sys2Proof Sys2Proof.Machine

/-- Settles O60: a host's turn leaves the command in flight with one turn fewer to come, the sequencer's completes it,
and a WAIT's read of STATUS shows BUSY. -/
theorem acceptedCommandCompletes : Obligations.AcceptedCommandCompletes := by
  refine ⟨fun s h hb _ hreset => h.run_completes hb hreset, fun r rest ht hr => ?_,
    fun r rest n ht h hb _ => HostRun.run_wait n ht h hb⟩
  rw [HostRun.draw_wait ht hr, ht]
  simp only [State.readReg, getLsbD_statusWord_zero]

/-- Settles O7, by the sequencer's step in flight. -/
theorem stepCompletesThePendingCommand : Obligations.StepCompletesThePendingCommand :=
  fun _ _ _ => step_completes_pending

/-- Settles O25: a reset turn is taken whatever was in flight, and `rst` stands before the access inside the window. -/
theorem resetStepReplacesState : Obligations.ResetStepReplacesState := by
  refine ⟨fun s b rest hs => ?_, fun s a rest off hr hs hw => ?_⟩
  · simp only [step, hs, takeTurn, resetTurn]
  · simp only [step, hs, takeTurn, hostTurn, hw, hr, if_true]

end Sys2Proof.Claim
end
